-- ==== Sys2Proof/Word.lean ====
section
/-! DEFINITION. The word types of the engine (00_scope R9, R10): bytes, nibbles and command words, all unsigned. -/

namespace Sys2Proof

/-- A byte: every register, table entry, table index, operand byte and output byte (R10). -/
abbrev Byte := BitVec 8

/-- A nibble: the operand of ABSORB_NIBBLE (R9, R73). -/
abbrev Nibble := BitVec 4

/-- A command word (R70). -/
abbrev Word := BitVec 32

end Sys2Proof
end

