-- ==== Sys2Proof/Syntax.lean ====
section
/-! DEFINITION. The commands of the engine (30_encoding R74), one constructor per row of spec/opcode_table.json. -/

namespace Sys2Proof

/-- A command with its operands, as R73 copies them from the word. -/
inductive Instr where
  /-- INIT (R102). -/
  | init
  /-- SWAP x, y (R103). -/
  | swap (x y : Byte)
  /-- ABSORB_NIBBLE v (R124). -/
  | absorbNibble (v : Nibble)
  /-- ABSORB_BYTE b (R125). -/
  | absorbByte (b : Byte)
  /-- ABSORB_STOP (R126). -/
  | absorbStop
  /-- UPDATE (R144). -/
  | update
  /-- WHIP (R145). -/
  | whip
  /-- CRUSH (R146). -/
  | crush
  /-- SHUFFLE (R147). -/
  | shuffle
  /-- OUTPUT (R173). -/
  | output
  /-- DRIP (R174). -/
  | drip
  /-- SQUEEZE n (R175). -/
  | squeeze (n : BitVec 16)
  /-- READ_S x (R190). -/
  | readS (x : Byte)
  /-- READ_REG r (R191), `r` the register number field: 0 to 5 are registers (R193). -/
  | readReg (r : Byte)
deriving DecidableEq, Repr

end Sys2Proof
end

