-- ==== Sys2Proof/WellFormed.lean ====
section
/-! DEFINITION. Which commands have a word the engine accepts: every operand fits its field by its type, and the
register number of READ_REG names a register (R72, R191, R193). -/

namespace Sys2Proof

/-- Well-formedness of a command. -/
def Instr.wf : Instr → Bool
  | .init => true
  | .swap _ _ => true
  | .absorbNibble _ => true
  | .absorbByte _ => true
  | .absorbStop => true
  | .update => true
  | .whip => true
  | .crush => true
  | .shuffle => true
  | .output => true
  | .drip => true
  | .squeeze _ => true
  | .readS _ => true
  | .readReg r => decide (r ≤ 5#8)

end Sys2Proof
end

