-- ==== Sys2Proof/Decode.lean ====
section
/-! DEFINITION. From a command word to a command or a rejection (30_encoding R70 to R77), and the encoder beside it. -/

namespace Sys2Proof

/-- The causes of rejection (60_exceptions R230, codes 1 to 4). -/
inductive Rejection where
  /-- BAD_OPCODE: `word[31:24]` is no opcode of R74. -/
  | badOpcode
  /-- RESERVED_NONZERO: a must-be-zero bit of the opcode's format is 1. -/
  | reservedNonzero
  /-- BAD_REGISTER: READ_REG of a number above 5. -/
  | badRegister
  /-- READBACK_DISABLED: READ_S or READ_REG while P_READBACK is false. -/
  | readbackDisabled
deriving DecidableEq, Repr

/-- The six formats of R72. -/
inductive Format where
  | FZ | FN | FB | FXY | FL | FR
deriving DecidableEq, Repr

/-- The must-be-zero bits of a format, as R75's RSVMASK writes them. -/
def Format.rsvMask : Format → Word
  | .FZ => 0x00FFFFFF#32
  | .FN => 0x00FFFFF0#32
  | .FB => 0x00FFFF00#32
  | .FXY => 0x00FF0000#32
  | .FL => 0x00FF0000#32
  | .FR => 0x00FFFF00#32

/-! ### The fields of a word (R71) -/

/-- OPC, bits 31:24. -/
def Word.opc (w : Word) : Byte := w.extractLsb' 24 8

/-- B, bits 15:8. -/
def Word.fieldB (w : Word) : Byte := w.extractLsb' 8 8

/-- A, bits 7:0. -/
def Word.fieldA (w : Word) : Byte := w.extractLsb' 0 8

/-- The nibble operand v, bits 3:0. -/
def Word.fieldV (w : Word) : Nibble := w.extractLsb' 0 4

/-- The length operand L, bits 15:0. -/
def Word.fieldL (w : Word) : BitVec 16 := w.extractLsb' 0 16

/-! ### The opcode map (R74) -/

/-- One row of R74: the opcode, its format, and how its operands are assembled (R73). -/
structure OpcodeRow where
  opc : Byte
  format : Format
  assemble : Word → Instr

/-- The match word of a row (R74). -/
def OpcodeRow.matchWord (r : OpcodeRow) : Word := r.opc.setWidth 32 <<< 24

/-- The match mask of a row (R72, R74): every bit but the operand bits. -/
def OpcodeRow.mask (r : OpcodeRow) : Word := 0xFF000000#32 ||| r.format.rsvMask

/-- The fourteen rows of R74, in its order. -/
def opcodeRows : List OpcodeRow :=
  [ ⟨0x01#8, .FZ, fun _ => .init⟩,
    ⟨0x02#8, .FXY, fun w => .swap (Word.fieldA w) (Word.fieldB w)⟩,
    ⟨0x10#8, .FN, fun w => .absorbNibble (Word.fieldV w)⟩,
    ⟨0x11#8, .FB, fun w => .absorbByte (Word.fieldA w)⟩,
    ⟨0x12#8, .FZ, fun _ => .absorbStop⟩,
    ⟨0x20#8, .FZ, fun _ => .update⟩,
    ⟨0x21#8, .FZ, fun _ => .whip⟩,
    ⟨0x22#8, .FZ, fun _ => .crush⟩,
    ⟨0x23#8, .FZ, fun _ => .shuffle⟩,
    ⟨0x30#8, .FZ, fun _ => .output⟩,
    ⟨0x31#8, .FZ, fun _ => .drip⟩,
    ⟨0x32#8, .FL, fun w => .squeeze (Word.fieldL w)⟩,
    ⟨0x40#8, .FB, fun w => .readS (Word.fieldA w)⟩,
    ⟨0x41#8, .FR, fun w => .readReg (Word.fieldA w)⟩ ]

/-- The row of an opcode, if R74 has one. -/
def rowOf (opc : Byte) : Option OpcodeRow := opcodeRows.find? (fun r => r.opc == opc)

/-- The opcodes of the readback commands, which exist only with P_READBACK (R192). -/
def isReadback (opc : Byte) : Bool := opc == 0x40#8 || opc == 0x41#8

/-- R75: the tests in their order, which is the priority of the causes (R233). -/
def decode (readback : Bool) (w : Word) : Except Rejection Instr :=
  match rowOf (Word.opc w) with
  | none => .error .badOpcode
  | some row =>
    if isReadback row.opc && !readback then .error .readbackDisabled
    else if w &&& row.format.rsvMask ≠ 0#32 then .error .reservedNonzero
    else if row.opc = 0x41#8 ∧ 5#8 < Word.fieldA w then .error .badRegister
    else .ok (row.assemble w)

/-! ### The encoder, from the same tables (R71, R72, R74) -/

/-- A word from its opcode and the operand bytes B and A; the reserved byte is 0 (R71). -/
def pack (opc b a : Byte) : Word := (opc.setWidth 32 <<< 24) ||| (b.setWidth 32 <<< 8) ||| a.setWidth 32

/-- The word of a command. -/
def encode : Instr → Word
  | .init => pack 0x01#8 0#8 0#8
  | .swap x y => pack 0x02#8 y x
  | .absorbNibble v => pack 0x10#8 0#8 (v.setWidth 8)
  | .absorbByte b => pack 0x11#8 0#8 b
  | .absorbStop => pack 0x12#8 0#8 0#8
  | .update => pack 0x20#8 0#8 0#8
  | .whip => pack 0x21#8 0#8 0#8
  | .crush => pack 0x22#8 0#8 0#8
  | .shuffle => pack 0x23#8 0#8 0#8
  | .output => pack 0x30#8 0#8 0#8
  | .drip => pack 0x31#8 0#8 0#8
  | .squeeze n => pack 0x32#8 (n.extractLsb' 8 8) (n.extractLsb' 0 8)
  | .readS x => pack 0x40#8 0#8 x
  | .readReg r => pack 0x41#8 0#8 r

/-! ### The opcode table's bits -/

/-- The command word whose low `nbits` bits are those of `w`, every other bit 0 (R70: one 32-bit word a command). -/
def tableWord (nbits w : Nat) : Word := BitVec.ofNat 32 (w % 2 ^ nbits)

/-- The command the decoder reads from a word given by its bits, on an engine built with P_READBACK = true (the only
build on which every row of R74 is accepted, R192). -/
def decodeTableWord (nbits w : Nat) : Option Instr := (decode true (tableWord nbits w)).toOption

end Sys2Proof
end

