-- ==== Sys2Proof/Config.lean ====
section
/-! DEFINITION. The build parameters of the engine (00_scope R8), fixed when the hardware is built and no register (R37).
The model takes them as an argument (R14): the state carries them and no step changes them. P_LATENCY is not here: it is
free for every command execution, and stands in the clock edges the machine meets (Machine/State.lean, `Edge.stall`). -/

namespace Sys2Proof

/-- The parameters of R8 that do not vary from one command execution to the next. -/
structure Config where
  /-- P_READBACK: whether READ_S and READ_REG are implemented. -/
  readback : Bool
  /-- P_OUT_DEPTH: the depth of the output buffer, at least 1. -/
  outDepth : Nat
deriving DecidableEq, Repr

/-- R8's bound on the parameters: the output buffer holds at least one byte. -/
def Config.wf (c : Config) : Bool := decide (1 ≤ c.outDepth)

end Sys2Proof
end

