-- ==== Sys2Proof/Machine/State.lean ====
section
/-! DEFINITION. The state of the engine (10_state R20, R38, R39), what the host does and has got at its ports, the reasons a
step can stop, and the state after reset (R41). -/

namespace Sys2Proof.Machine

/-- The S-table (R20, R21) as the list of the entries that differ from the identity permutation, indices rising: an unlisted
index `v` reads as `v`, its value at reset (R41). Machine/Ops.lean holds the operations and the canonical form. -/
abbrev Memory := List Host.Cell

/-- What the input ports carry, and how fast the engine works, at one rising edge of `clk` (30_encoding R82 to R85). -/
structure Edge where
  /-- The reset input `rst` (R85). -/
  rst : Bool
  /-- `cmd_valid`: the host offers its next command word (R82). -/
  cmdValid : Bool
  /-- `out_ready`: the host takes a byte if one is presented (R84). -/
  outReady : Bool
  /-- The engine needs at least one cycle more before it emits its next byte, or, with none left, completes: its pace and with
  it P_LATENCY (R8) are left free, but for the soonest moment of the first byte (log entry 14). -/
  stall : Bool
deriving DecidableEq, Repr

/-- The edge of a host that does its duties without delay (R273): no reset, a word offered whenever it has one, every byte
taken. It stands for every edge that the state does not list. -/
def Edge.plain : Edge := { rst := false, cmdValid := true, outReady := true, stall := false }

/-- The machine: the engine's state, its build parameters, and the host's side of the ports. -/
@[ext]
structure State where
  /-- The build parameters (R8). No step changes them. -/
  cfg : Config
  /-- The S-table (R20). -/
  mem : Memory
  /-- The absorption counter (R24). -/
  a : Byte
  /-- Permutation index i (R25). -/
  i : Byte
  /-- Permutation index j (R25). -/
  j : Byte
  /-- Permutation index k (R25). -/
  k : Byte
  /-- The step stride (R26). -/
  w : Byte
  /-- The last output (R25). -/
  z : Byte
  /-- STATUS.ERR (R32, R34). -/
  err : Bool
  /-- STATUS.ERRCODE (R32, R35). -/
  errcode : BitVec 3
  /-- The sequencer is at work on a command (R38); idle is false. -/
  working : Bool
  /-- The output buffer, oldest byte first (R39, R84). -/
  buffer : List Byte
  /-- The bytes that the running command has still to emit into the buffer, in order (R84). -/
  pending : List Byte
  /-- The bytes the host has taken, first to last (R84). The host's, not the engine's. -/
  received : List Byte
  /-- The command words the host presents, in its order; the first is on `cmd_data` until it is transferred (R82). -/
  offered : List Word
  /-- The coming clock edges; when none is listed, every edge is `Edge.plain`. -/
  edges : List Edge
deriving DecidableEq, Repr

/-- The reasons a step can stop with a fault: there are none. No accepted command can fail (60_exceptions R231), and a
rejected word changes STATUS and the engine goes on (R232). An empty type is safe: it hides no behaviour. -/
inductive Fault where
deriving DecidableEq, Repr

/-- The reasons a step can be refused. -/
inductive Refusal where
  /-- The instruction has no meaning in this model. Raised by an arm of `exec` alone; none of its arms raises it. Safe: the
  model stops where the hardware goes on. -/
  | notModelled (mnemonic : String)
deriving DecidableEq, Repr

/-- The machine right after reset (R41, R260) when it was built with the parameters `c`: S the identity, w = 1, every other
register and STATUS field 0, the sequencer idle, the output buffer empty; the host has taken nothing and offers nothing. -/
def State.resetWith (c : Config) : State :=
  { cfg := c, mem := [], a := 0#8, i := 0#8, j := 0#8, k := 0#8, w := 1#8, z := 0#8, err := false, errcode := 0#3,
    working := false, buffer := [], pending := [], received := [], offered := [], edges := [] }

/-- The machine right after reset, on an engine built with P_READBACK = true and a one-byte output buffer.
DESIGN CHOICE (log entry 1): the spec leaves both parameters open; no statement rests on these values. -/
def State.reset : State := State.resetWith { readback := true, outDepth := 1 }

end Sys2Proof.Machine
end

