-- ==== Sys2Proof/Machine/Ops.lean ====
section
/-! DEFINITION. The named operations: memory (20_memory R50 to R55), swap and initializeState (40_table R100, R101), emit
(00_scope R13, 30_encoding R84), and rejection, the engine's one exceptional event (60_exceptions R230 to R235). -/

namespace Sys2Proof.Machine

/-! ### Memory: the S-table's 256 one-byte entries -/

/-- What an unlisted index reads as: itself, the entry's value at reset (R41). -/
def Memory.unlisted (n : Nat) : Byte := BitVec.ofNat 8 n

/-- Read the entry at an index. -/
def Memory.read : Memory → Nat → Byte
  | [], n => Memory.unlisted n
  | c :: m, n => if c.1 = n then c.2 else Memory.read m n

/-- Drop what is listed at an index. -/
def Memory.remove : Memory → Nat → Memory
  | [], _ => []
  | c :: m, n => if c.1 = n then Memory.remove m n else c :: Memory.remove m n

/-- List an entry at its place in the rising order. -/
def Memory.place : Memory → Nat → Byte → Memory
  | [], n, v => [(n, v)]
  | c :: m, n, v => if n < c.1 then (n, v) :: c :: m else c :: Memory.place m n v

/-- Write an entry, keeping the canonical form. -/
def Memory.write (m : Memory) (n : Nat) (v : Byte) : Memory :=
  if v = Memory.unlisted n then m.remove n else (m.remove n).place n v

/-- The canonical form: indices of the table, strictly rising, and no entry that an unlisted index would read as. -/
def Memory.wf : Memory → Bool
  | [] => true
  | c :: m => decide (c.1 < 256) && decide (c.2 ≠ Memory.unlisted c.1) && m.all (fun d => decide (c.1 < d.1)) && Memory.wf m

/-! ### The table and the registers of a state -/

/-- S[x] (R13): a read has no side effect (R55). -/
def State.S (s : State) (x : Byte) : Byte := s.mem.read x.toNat

/-- a <- v (R13). -/
def State.setA (s : State) (v : Byte) : State := { s with a := v }

/-- w <- v (R13). -/
def State.setW (s : State) (v : Byte) : State := { s with w := v }

/-- z <- v (R13). -/
def State.setZ (s : State) (v : Byte) : State := { s with z := v }

/-- swap(x, y) (R100): both entries in one indivisible step (R54). -/
def State.swap (s : State) (x y : Byte) : State :=
  { s with mem := (s.mem.write x.toNat (s.S y)).write y.toNat (s.S x) }

/-- initializeState() (R101). Nothing listed is the identity table. -/
def State.initializeState (s : State) : State :=
  { s with mem := [], a := 0#8, i := 0#8, j := 0#8, k := 0#8, w := 1#8, z := 0#8 }

/-! ### Output and rejection -/

/-- emit(b) (R13): append a byte to the output stream, in order (R84). It waits in `pending`; the earliest edge at which it is in
the output buffer is the one after the transfer: DESIGN CHOICE (log entry 14, unsafe). -/
def State.emit (s : State) (b : Byte) : State := { s with pending := s.pending ++ [b] }

/-- The code of a rejection cause (R230). -/
def rejectionCode : Rejection → BitVec 3
  | .badOpcode => 1#3
  | .reservedNonzero => 2#3
  | .badRegister => 3#3
  | .readbackDisabled => 4#3

/-- reject(code) (R232): the exception of this hardware. The first cause since the last reset or INIT is kept (R35);
nothing else changes. There is no return from it (R235). -/
def State.reject (s : State) (c : Rejection) : State :=
  if s.err then s else { s with err := true, errcode := rejectionCode c }

/-- What an accepted INIT does to STATUS (R102, R34). -/
def State.clearErr (s : State) : State := { s with err := false, errcode := 0#3 }

end Sys2Proof.Machine
end

