-- ==== Sys2Proof/Machine/Operands.lean ====
section
/-! DEFINITION. The operand forms: nibbles and bytes (00_scope R9, 30_encoding R73), the length of SQUEEZE (43_output R172)
and the register numbers of READ_REG (44_readback R193). -/

namespace Sys2Proof.Machine

/-- The low nibble of a byte, `b[3:0]` (R9). -/
def lowNibble (b : Byte) : Nibble := b.extractLsb' 0 4

/-- The high nibble of a byte, `b[7:4]` (R9). -/
def highNibble (b : Byte) : Nibble := b.extractLsb' 4 4

/-- The table index a nibble is absorbed at: `(128 + v) mod 256`, v zero-extended (R73, R120). -/
def nibbleIndex (v : Nibble) : Byte := 128#8 + v.setWidth 8

/-- How many bytes SQUEEZE n produces: min(n, 256) (R172). -/
def squeezeCount (n : BitVec 16) : Nat := min n.toNat 256

/-- The six registers (R20). -/
inductive RegName where
  | a | i | j | k | w | z
deriving DecidableEq, Repr

/-- Register numbers (R193); the others are BAD_REGISTER (R191). -/
def regOfNumber (r : Byte) : Option RegName :=
  if r = 0#8 then some .a
  else if r = 1#8 then some .i
  else if r = 2#8 then some .j
  else if r = 3#8 then some .k
  else if r = 4#8 then some .w
  else if r = 5#8 then some .z
  else none

/-- REG(r) (R191). -/
def State.reg (s : State) : RegName → Byte
  | .a => s.a
  | .i => s.i
  | .j => s.j
  | .k => s.k
  | .w => s.w
  | .z => s.z

end Sys2Proof.Machine
end

