-- ==== Sys2Proof/Machine/Scrambler.lean ====
section
/-! DEFINITION. The Scrambler (42_scrambler): update, whip, crush and shuffle, and their commands. -/

namespace Sys2Proof.Machine

/-- The indices' part of update() (R140), its statements in order (R12): the new i for j, the new i and the new j for k. -/
def State.stepIndices (s : State) : State :=
  let s := { s with i := s.i + s.w }
  let s := { s with j := s.k + s.S (s.j + s.S s.i) }
  { s with k := s.i + s.k + s.S s.j }

/-- update() (R140): the indices, then the swap at the new i and j. -/
def State.update (s : State) : State :=
  let s := s.stepIndices
  s.swap s.i s.j

/-- The length of a whip: 512 updates (R6, R141). Irreducible, as the three operations over it are,
so that no proof unrolls a whip by accident. -/
@[irreducible] def whipLength : Nat := 512

/-- whip() (R141): exactly 512 updates, then the stride. -/
@[irreducible] def State.whip (s : State) : State :=
  let s := Nat.iterate State.update whipLength s
  s.setW (s.w + 2#8)

/-- One pair of crush (R142); the comparison is unsigned (R11). -/
def State.crushPair (s : State) (v : Byte) : State :=
  if s.S (255#8 - v) < s.S v then s.swap v (255#8 - v) else s

/-- The values v takes in crush: [0, 128), increasing (R13, R142). -/
@[irreducible] def crushRange : List Byte := (List.range 128).map (BitVec.ofNat 8)

/-- crush() (R142). -/
@[irreducible] def State.crush (s : State) : State := crushRange.foldl State.crushPair s

/-- shuffle() (R143): three whips and two crushes in this order, then the counter is cleared. -/
@[irreducible] def State.shuffle (s : State) : State :=
  s.whip.crush.whip.crush.whip.setA 0#8

/-- UPDATE (R144). -/
def execUpdate (s : State) : Host.Outcome State Fault Refusal := .next s.update

/-- WHIP (R145). -/
def execWhip (s : State) : Host.Outcome State Fault Refusal := .next s.whip

/-- CRUSH (R146). -/
def execCrush (s : State) : Host.Outcome State Fault Refusal := .next s.crush

/-- SHUFFLE (R147). -/
def execShuffle (s : State) : Host.Outcome State Fault Refusal := .next s.shuffle

end Sys2Proof.Machine
end

