-- ==== Sys2Proof/Machine/Absorption.lean ====
section
/-! DEFINITION. The Absorption pipeline (41_absorption): absorbNibble, absorbByte and absorbStop, and their commands. -/

namespace Sys2Proof.Machine

/-- The threshold test (R120, R122), made at entry (R123): a full counter shuffles first. -/
def State.threshold (s : State) : State := if s.a = 128#8 then s.shuffle else s

/-- absorbNibble(v) (R120). -/
def State.absorbNibble (s : State) (v : Nibble) : State :=
  let s := s.threshold
  let s := s.swap s.a (nibbleIndex v)
  s.setA (s.a + 1#8)

/-- absorbByte(b) (R121): the low nibble first. -/
def State.absorbByte (s : State) (b : Byte) : State :=
  (s.absorbNibble (lowNibble b)).absorbNibble (highNibble b)

/-- absorbStop() (R122): the counter alone, no swap. -/
def State.absorbStop (s : State) : State :=
  let s := s.threshold
  s.setA (s.a + 1#8)

/-- ABSORB_NIBBLE v (R124). -/
def execAbsorbNibble (v : Nibble) (s : State) : Host.Outcome State Fault Refusal := .next (s.absorbNibble v)

/-- ABSORB_BYTE b (R125). -/
def execAbsorbByte (b : Byte) (s : State) : Host.Outcome State Fault Refusal := .next (s.absorbByte b)

/-- ABSORB_STOP (R126). -/
def execAbsorbStop (s : State) : Host.Outcome State Fault Refusal := .next s.absorbStop

end Sys2Proof.Machine
end

