-- ==== Sys2Proof/Machine/Output.lean ====
section
/-! DEFINITION. Output extraction (43_output): output, drip and squeeze, and their commands. The byte that `output` and
`drip` return is the new z (R170, R171). -/

namespace Sys2Proof.Machine

/-- output() (R170): three reads, and only z is written. -/
def State.output (s : State) : State :=
  let t1 := s.S (s.z + s.k)
  let t2 := s.S (s.i + t1)
  s.setZ (s.S (s.j + t2))

/-- The test of drip and squeeze (R171, R172): pending absorbed material is shuffled in first. -/
def State.drain (s : State) : State := if 0#8 < s.a then s.shuffle else s

/-- drip() (R171). -/
def State.drip (s : State) : State := s.drain.update.output

/-- emit(drip()) (R172, R174). -/
def State.emitDrip (s : State) : State :=
  let s := s.drip
  s.emit s.z

/-- squeeze(n), for a byte count already cut to the ceiling (R172): one shuffle at most, then the drips. -/
def State.squeeze (s : State) (count : Nat) : State := Nat.iterate State.emitDrip count s.drain

/-- OUTPUT (R173). -/
def execOutput (s : State) : Host.Outcome State Fault Refusal := .next (s.output.emit s.output.z)

/-- DRIP (R174). -/
def execDrip (s : State) : Host.Outcome State Fault Refusal := .next s.emitDrip

/-- SQUEEZE n (R175). -/
def execSqueeze (n : BitVec 16) (s : State) : Host.Outcome State Fault Refusal := .next (s.squeeze (squeezeCount n))

end Sys2Proof.Machine
end

