-- ==== Sys2Proof/Machine/Readback.lean ====
section
/-! DEFINITION. State readback (44_readback): READ_S and READ_REG, which exist only with P_READBACK (R192). The decoder
already rejects their words on an engine built without it (30_encoding R75); the meanings make the same tests, so that each
rejects on its own terms too. -/

namespace Sys2Proof.Machine

/-- READ_S x (R190). -/
def execReadS (x : Byte) (s : State) : Host.Outcome State Fault Refusal :=
  if s.cfg.readback then .next (s.emit (s.S x)) else .next (s.reject .readbackDisabled)

/-- READ_REG r (R191). -/
def execReadReg (r : Byte) (s : State) : Host.Outcome State Fault Refusal :=
  if s.cfg.readback then
    match regOfNumber r with
    | some n => .next (s.emit (s.reg n))
    | none => .next (s.reject .badRegister)
  else .next (s.reject .readbackDisabled)

end Sys2Proof.Machine
end

