-- ==== Sys2Proof/Machine/Table.lean ====
section
/-! DEFINITION. The State layer's commands (40_table): INIT and SWAP. -/

namespace Sys2Proof.Machine

/-- INIT (R102). DESIGN CHOICE (log entry 13, unsafe): the spec gives no cycle at which a running INIT clears ERR and ERRCODE on
the status port (R32, R83); the model clears them at the edge that transfers it. -/
def execInit (s : State) : Host.Outcome State Fault Refusal := .next s.initializeState.clearErr

/-- SWAP x, y (R103). -/
def execSwap (x y : Byte) (s : State) : Host.Outcome State Fault Refusal := .next (s.swap x y)

end Sys2Proof.Machine
end

