-- ==== Sys2Proof/Machine/Dispatch.lean ====
section
/-! DEFINITION. One command (30_encoding R74, R75): the meaning of each, called by its constructor. -/

namespace Sys2Proof.Machine

def exec (i : Instr) (s : State) : Host.Outcome State Fault Refusal :=
  match i with
  | .init => Sys2Proof.Machine.execInit s
  | .swap x y => Sys2Proof.Machine.execSwap x y s
  | .absorbNibble v => Sys2Proof.Machine.execAbsorbNibble v s
  | .absorbByte b => Sys2Proof.Machine.execAbsorbByte b s
  | .absorbStop => Sys2Proof.Machine.execAbsorbStop s
  | .update => Sys2Proof.Machine.execUpdate s
  | .whip => Sys2Proof.Machine.execWhip s
  | .crush => Sys2Proof.Machine.execCrush s
  | .shuffle => Sys2Proof.Machine.execShuffle s
  | .output => Sys2Proof.Machine.execOutput s
  | .drip => Sys2Proof.Machine.execDrip s
  | .squeeze n => Sys2Proof.Machine.execSqueeze n s
  | .readS x => Sys2Proof.Machine.execReadS x s
  | .readReg r => Sys2Proof.Machine.execReadReg r s

end Sys2Proof.Machine
end

