-- ==== Sys2Proof/Machine/Flags.lean ====
section
/-! DEFINITION. The STATUS register (10_state R32 to R37), the engine's only flags. -/

namespace Sys2Proof.Machine

/-- BUSY (R33): a command's work is not finished, or the host has not taken all of its bytes. -/
def State.busy (s : State) : Bool := s.working || !s.buffer.isEmpty || !s.pending.isEmpty

/-- The 8-bit STATUS register (R32): bit 0 BUSY, bit 1 ERR, bits 4:2 ERRCODE, bits 7:5 read as 0. -/
def State.status (s : State) : Byte :=
  (s.errcode.setWidth 8 <<< 2) ||| ((BitVec.ofBool s.err).setWidth 8 <<< 1) ||| (BitVec.ofBool s.busy).setWidth 8

end Sys2Proof.Machine
end

