-- ==== Sys2Proof/Machine/Ports.lean ====
section
/-! DEFINITION. The ports, one rising edge of `clk` at a time (30_encoding R82 to R86, 70_reset R260 to R273): which event an
edge brings, what each event does to the state, and the output signals. -/

namespace Sys2Proof.Machine

/-- The levels at the coming edge. -/
def State.edge (s : State) : Edge := s.edges.headD Edge.plain

/-- The coming edge passes, and nothing else happens: an idle engine keeps all of its state (R243). -/
def State.passEdge (s : State) : State := { s with edges := s.edges.tail }

/-! ### Output signals -/

/-- `cmd_ready` (R82): out of reset, and BUSY = 0. -/
def State.cmdReady (s : State) : Bool := !s.edge.rst && !s.busy

/-- `out_valid` (R84, R260): the buffer presents a byte, and the engine is out of reset. -/
def State.outValid (s : State) : Bool := !s.edge.rst && !s.buffer.isEmpty

/-- `out_data` (R84): the oldest byte of the buffer, where there is one. -/
def State.outData (s : State) : Option Byte := s.buffer.head?

/-! ### Events -/

/-- The event of an edge, by the levels of the ports and by BUSY (R82, R84, R260). -/
inductive PortEvent where
  /-- `rst` is 1: reset dominates, also during a command (R260, R261). -/
  | reset
  /-- A command is running: a word offered waits (R82). -/
  | busy
  /-- Nothing is offered. -/
  | idle
  /-- This word is transferred. -/
  | command (word : Word)
deriving DecidableEq, Repr

/-- Which event the coming edge brings. -/
def portEvent (s : State) : PortEvent :=
  if s.edge.rst then .reset
  else if s.busy then .busy
  else if s.edge.cmdValid then
    match s.offered with
    | [] => .idle
    | word :: _ => .command word
  else .idle

/-- A reset edge (R260): every piece of state takes its reset value, a running command is abandoned and its bytes not yet
taken are discarded (R261). The host keeps the bytes it has taken and the words it has yet to present. -/
def State.resetEdge (s : State) : State :=
  { State.resetWith s.cfg with received := s.received, offered := s.offered, edges := s.edges.tail }

/-- The host takes the oldest byte of the output buffer (R55, R84). -/
def State.takeByte (s : State) : State :=
  match s.buffer with
  | [] => s
  | b :: bs => { s with received := s.received ++ [b], buffer := bs }

/-- The engine's part of an edge at which it does not stall: the next byte goes into the output buffer if there is room; while
the buffer is full the engine waits, and no byte is dropped (R84). -/
def State.emitByte (s : State) : State :=
  match s.pending with
  | [] => s
  | b :: bs => if s.buffer.length < s.cfg.outDepth then { s with buffer := s.buffer ++ [b], pending := bs } else s

/-- An edge while BUSY is 1: the host takes a byte if it is ready and one is presented, and the engine gets on unless it stalls.
When its work is done and the last byte taken, the command is complete (R33). -/
def State.busyEdge (s : State) : State :=
  let e := s.edge
  let s := s.passEdge
  let s := if e.outReady then s.takeByte else s
  if e.stall then s else { s.emitByte with working := false }

/-- The offered word is transferred and rejected: it is consumed, and BUSY stays 0 (R33, R232). -/
def State.consumeWord (s : State) : State := { s.passEdge with offered := s.offered.tail }

/-- The offered word is transferred and accepted: the engine starts its work, which ends in this cycle unless it stalls. DESIGN
CHOICE (log entry 14, unsafe): R8 and R84 leave open how soon after this edge the first byte may be presented, and the model emits
none at this edge, so that out_valid is 0 in the cycle after it and an emitting command meets two more edges at least. DESIGN
CHOICE (log entry 13, unsafe): the command's effect on STATUS is on the status port from this edge on, whether or not it stalls. -/
def State.acceptWord (s : State) : State := { s.consumeWord with working := s.edge.stall }

end Sys2Proof.Machine
end

