-- ==== Sys2Proof/Machine/Step.lean ====
section
/-! DEFINITION. One step: one rising edge of `clk`. The engine has no program counter and fetches nothing (10_state R31,
20_memory R62): its next instruction is the word the host has on the command port. -/

namespace Sys2Proof.Machine

/-- One step (R75, R82): at an edge that transfers a word, the whole command is performed or the word is rejected. What the ports
show of a command that stalls, before it completes, is the model's choice (log entries 4, 13 and 14). -/
def step (s : State) : Host.Outcome State Fault Refusal :=
  match portEvent s with
  | .reset => .next s.resetEdge
  | .busy => .next s.busyEdge
  | .idle => .next s.passEdge
  | .command word =>
    match decode s.cfg.readback word with
    | .error cause => .next (s.consumeWord.reject cause)
    | .ok i => exec i s.acceptWord

/-- `s` with a word presented on the command port at the next edge of an engine that is ready for it: out of reset, and no
command running (R82), so that output not yet taken is given up. The words and edges of `s` follow it. -/
def State.withFetchWord (s : State) (nbits w : Nat) : State :=
  { s with working := false, buffer := [], pending := [], offered := tableWord nbits w :: s.offered, edges := Edge.plain :: s.edges }

end Sys2Proof.Machine
end

