-- ==== Sys2Proof/Machine/Assembler.lean ====
section
/-! DEFINITION. The assembler syntax (30_encoding R79): one command a line, its operands separated by commas, a comment after
`;`. An operand that does not fit its field is an assembly error and produces no word. -/

namespace Sys2Proof.Machine

/-- The tokens of a line. -/
inductive AsmToken where
  | comma
  | number (n : Nat)
  | char (c : Char)
  | ident (name : String)
deriving DecidableEq, Repr

/-! ### Tokens -/

/-- The value of a digit, hexadecimal digits included. -/
def digitValue (c : Char) : Option Nat :=
  let n := c.toNat
  if 48 ≤ n ∧ n ≤ 57 then some (n - 48)
  else if 65 ≤ n ∧ n ≤ 70 then some (n - 55)
  else if 97 ≤ n ∧ n ≤ 102 then some (n - 87)
  else none

/-- The digits of a number in a base, after the value `acc` of those already read. -/
def numberFrom (base : Nat) : List Char → Nat → Option Nat
  | [], acc => some acc
  | c :: cs, acc =>
    match digitValue c with
    | some d => if d < base then numberFrom base cs (acc * base + d) else none
    | none => none

/-- A number: decimal, or hexadecimal after 0x. -/
def numberOf : List Char → Option Nat
  | [] => none
  | '0' :: 'x' :: [] => none
  | '0' :: 'x' :: ds => numberFrom 16 ds 0
  | ds => numberFrom 10 ds 0

/-- A letter of a mnemonic or of a register name. -/
def isNameChar (c : Char) : Bool := c.isAlpha || c == '_'

/-- The token that a run of characters is. -/
def tokenOf (cs : List Char) : Option AsmToken :=
  if cs.all isNameChar then some (.ident (String.ofList cs)) else (numberOf cs).map .number

/-- Put the token of the characters read so far, last first, before the tokens that follow. -/
def flushToken (cur : List Char) (rest : Option (List AsmToken)) : Option (List AsmToken) :=
  if cur.isEmpty then rest
  else
    match tokenOf cur.reverse, rest with
    | some t, some ts => some (t :: ts)
    | _, _ => none

/-- The tokens of a line, `cur` the characters of the token under way, last first. -/
def tokens (cur : List Char) : List Char → Option (List AsmToken)
  | [] => flushToken cur (some [])
  | '\'' :: c :: '\'' :: rest =>
    if cur.isEmpty && decide (c.toNat < 128) then (tokens [] rest).map (AsmToken.char c :: ·) else none
  | c :: rest =>
    if c = ';' then flushToken cur (some [])
    else if c = ',' then flushToken cur ((tokens [] rest).map (AsmToken.comma :: ·))
    else if c = ' ' ∨ c = '\t' then flushToken cur (tokens [] rest)
    else tokens (c :: cur) rest

/-- Operands between commas. -/
def separated : List AsmToken → Option (List AsmToken)
  | [] => some []
  | [t] => if t = .comma then none else some [t]
  | t :: .comma :: u :: rest => if t = .comma then none else (separated (u :: rest)).map (t :: ·)
  | _ :: _ :: _ => none

/-! ### Operands -/

/-- A number below a bound. -/
def asmNumber (bound : Nat) : AsmToken → Option Nat
  | .number n => if n < bound then some n else none
  | .comma => none
  | .char _ => none
  | .ident _ => none

/-- An operand byte (b, x or y): a number to 255 or a quoted character. -/
def asmByte : AsmToken → Option Byte
  | .char c => some (BitVec.ofNat 8 c.toNat)
  | t => (asmNumber 256 t).map (BitVec.ofNat 8)

/-- The number of a register (R193). -/
def regNumber : RegName → Byte
  | .a => 0#8
  | .i => 1#8
  | .j => 2#8
  | .k => 3#8
  | .w => 4#8
  | .z => 5#8

/-- A register by its name (R193). -/
def regOfName (name : String) : Option RegName :=
  if name = "a" then some .a
  else if name = "i" then some .i
  else if name = "j" then some .j
  else if name = "k" then some .k
  else if name = "w" then some .w
  else if name = "z" then some .z
  else none

/-- A register operand: its name, or its number. -/
def asmReg : AsmToken → Option Byte
  | .ident name => (regOfName name).map regNumber
  | t => (asmNumber 6 t).map (BitVec.ofNat 8)

/-- A command from its mnemonic and operands. -/
def asmCommand (mnemonic : String) (ops : List AsmToken) : Option Instr :=
  match ops with
  | [] =>
    if mnemonic = "INIT" then some .init
    else if mnemonic = "ABSORB_STOP" then some .absorbStop
    else if mnemonic = "UPDATE" then some .update
    else if mnemonic = "WHIP" then some .whip
    else if mnemonic = "CRUSH" then some .crush
    else if mnemonic = "SHUFFLE" then some .shuffle
    else if mnemonic = "OUTPUT" then some .output
    else if mnemonic = "DRIP" then some .drip
    else none
  | [t] =>
    if mnemonic = "ABSORB_NIBBLE" then (asmNumber 16 t).map (fun n => .absorbNibble (BitVec.ofNat 4 n))
    else if mnemonic = "ABSORB_BYTE" then (asmByte t).map .absorbByte
    else if mnemonic = "SQUEEZE" then (asmNumber 65536 t).map (fun n => .squeeze (BitVec.ofNat 16 n))
    else if mnemonic = "READ_S" then (asmByte t).map .readS
    else if mnemonic = "READ_REG" then (asmReg t).map .readReg
    else none
  | [t, u] =>
    if mnemonic = "SWAP" then
      match asmByte t, asmByte u with
      | some x, some y => some (.swap x y)
      | _, _ => none
    else none
  | _ :: _ :: _ :: _ => none

/-- A line: `none` is an assembly error; a line without a command holds no command. -/
def assembleLine (line : List Char) : Option (List Instr) :=
  match tokens [] line with
  | some [] => some []
  | some (.ident mnemonic :: rest) => ((separated rest).bind (asmCommand mnemonic)).map (fun i => [i])
  | some _ => none
  | none => none

/-- The command words of a text, line by line. -/
def assemble : List (List Char) → Option (List Word)
  | [] => some []
  | line :: lines =>
    match assembleLine line, assemble lines with
    | some is, some ws => some (is.map encode ++ ws)
    | _, _ => none

end Sys2Proof.Machine
end

