-- ==== Sys2Proof/Machine/Work.lean ====
section
/-! DEFINITION. The work each command does, in primitive steps (42_scrambler R149, 70_reset R271), counted by running it: each
operation again, over a state that carries its counts. No command can observe these counts (R242), so they are no part of the
engine's state. -/

namespace Sys2Proof.Machine

/-- The columns of R271's table. -/
structure Work where
  updates : Nat
  comparisons : Nat
  swaps : Nat
  bytes : Nat
deriving DecidableEq, Repr

/-- Work done one after the other. -/
def Work.plus (p q : Work) : Work :=
  ⟨p.updates + q.updates, p.comparisons + q.comparisons, p.swaps + q.swaps, p.bytes + q.bytes⟩

/-- No work. -/
def Work.none : Work := ⟨0, 0, 0, 0⟩

/-- The work of a row of R271's table: the swaps in a range, the other columns exact. -/
structure Work.Within (w : Work) (updates comparisons fewest most bytes : Nat) : Prop where
  updates : w.updates = updates
  comparisons : w.comparisons = comparisons
  fewest : fewest ≤ w.swaps
  most : w.swaps ≤ most
  bytes : w.bytes = bytes

/-- A state in the middle of a counted run, and the work done so far. -/
structure Counted where
  state : State
  work : Work
deriving DecidableEq, Repr

/-! ### The steps that are counted, and those that are not -/

/-- A step that no column of R271 counts. -/
def Counted.apply (f : State → State) (c : Counted) : Counted := ⟨f c.state, c.work⟩

/-- Count, and do nothing. -/
def Counted.count (w : Work) (c : Counted) : Counted := ⟨c.state, c.work.plus w⟩

/-- One swap (R100). -/
def Counted.swap (x y : Byte) (c : Counted) : Counted := (c.count ⟨0, 0, 1, 0⟩).apply (fun s => s.swap x y)

/-- One byte emitted (R13). -/
def Counted.emit (b : Byte) (c : Counted) : Counted := (c.count ⟨0, 0, 0, 1⟩).apply (fun s => s.emit b)

/-! ### The operations, counted -/

/-- update() (R140). -/
def Counted.update (c : Counted) : Counted :=
  let c := (c.count ⟨1, 0, 0, 0⟩).apply State.stepIndices
  c.swap c.state.i c.state.j

/-- whip() (R141). -/
@[irreducible] def Counted.whip (c : Counted) : Counted :=
  (Nat.iterate Counted.update whipLength c).apply (fun s => s.setW (s.w + 2#8))

/-- One pair of crush (R142). -/
def Counted.crushPair (c : Counted) (v : Byte) : Counted :=
  let c := c.count ⟨0, 1, 0, 0⟩
  if c.state.S (255#8 - v) < c.state.S v then c.swap v (255#8 - v) else c

/-- crush() (R142). -/
@[irreducible] def Counted.crush (c : Counted) : Counted := crushRange.foldl Counted.crushPair c

/-- shuffle() (R143). -/
@[irreducible] def Counted.shuffle (c : Counted) : Counted :=
  c.whip.crush.whip.crush.whip.apply (fun s => s.setA 0#8)

/-- The threshold test (R120, R122). -/
def Counted.threshold (c : Counted) : Counted := if c.state.a = 128#8 then c.shuffle else c

/-- The test of drip and squeeze (R171, R172). -/
def Counted.drain (c : Counted) : Counted := if 0#8 < c.state.a then c.shuffle else c

/-- absorbNibble(v) (R120). -/
def Counted.absorbNibble (v : Nibble) (c : Counted) : Counted :=
  let c := c.threshold
  (c.swap c.state.a (nibbleIndex v)).apply (fun s => s.setA (s.a + 1#8))

/-- absorbStop() (R122). -/
def Counted.absorbStop (c : Counted) : Counted := c.threshold.apply (fun s => s.setA (s.a + 1#8))

/-- emit(drip()) (R171, R172, R174). -/
def Counted.emitDrip (c : Counted) : Counted :=
  let c := c.drain.update.apply State.output
  c.emit c.state.z

/-- A command, counted (R74, R271). -/
def Counted.run (i : Instr) (c : Counted) : Counted :=
  match i with
  | .init => c.apply (fun s => s.initializeState.clearErr)
  | .swap x y => c.swap x y
  | .absorbNibble v => c.absorbNibble v
  | .absorbByte b => (c.absorbNibble (lowNibble b)).absorbNibble (highNibble b)
  | .absorbStop => c.absorbStop
  | .update => c.update
  | .whip => c.whip
  | .crush => c.crush
  | .shuffle => c.shuffle
  | .output => (c.apply State.output).emit c.state.output.z
  | .drip => c.emitDrip
  | .squeeze n => Nat.iterate Counted.emitDrip (squeezeCount n) c.drain
  | .readS x =>
    if c.state.cfg.readback then c.emit (c.state.S x) else c.apply (fun s => s.reject .readbackDisabled)
  | .readReg r =>
    if c.state.cfg.readback then
      match regOfNumber r with
      | some n => c.emit (c.state.reg n)
      | none => c.apply (fun s => s.reject .badRegister)
    else c.apply (fun s => s.reject .readbackDisabled)

/-- A command's counted run from a state: the state it ends in, and its work. -/
def countedRun (i : Instr) (s : State) : Counted := Counted.run i ⟨s, Work.none⟩

end Sys2Proof.Machine
end

