-- ==== Sys2Proof/Machine/HostSequences.lean ====
section
/-! DEFINITION. The host sequences (45_host_sequences): the source's public operations as lists of commands, and the
arithmetic the host does on the bytes it gets. They have no opcode (30_encoding R80); the engine knows nothing of them. -/

namespace Sys2Proof.Machine

/-! ### The command lists -/

/-- ABSORB m (R201): nothing for an empty m. -/
def absorbSeq (m : List Byte) : List Instr := m.map Instr.absorbByte

/-- KEYSETUP key (R202). -/
def keySetupSeq (key : List Byte) : List Instr := .init :: absorbSeq key

/-- The set-up of the operations with an IV (R205, R206): the stop separates key and IV. -/
def ivSetupSeq (key iv : List Byte) : List Instr := keySetupSeq key ++ .absorbStop :: absorbSeq iv

/-- A set-up, then one DRIP for each data element (R203 to R206). -/
def keystreamSeq (setup : List Instr) (n : Nat) : List Instr := setup ++ List.replicate n .drip

/-- The byte that carries a length: L mod 256 (R210). -/
def lengthByte (len : Nat) : Byte := BitVec.ofNat 8 len

/-- The count the host passes to SQUEEZE: min(L, 65535) (R211). -/
def squeezeArg (len : Nat) : BitVec 16 := BitVec.ofNat 16 (min len 65535)

/-- MAC message, key, L (R207); the host refuses L = 0 (R213). -/
def macSeq (message key : List Byte) (len : Nat) : Option (List Instr) :=
  if len = 0 then none
  else some (keySetupSeq key ++ .absorbStop :: absorbSeq message ++
    [.absorbStop, .absorbByte (lengthByte len), .squeeze (squeezeArg len)])

/-- HASH message, L (R208); the host refuses L = 0 (R213). -/
def hashSeq (message : List Byte) (len : Nat) : Option (List Instr) :=
  if len = 0 then none
  else some (keySetupSeq message ++ [.absorbStop, .absorbByte (lengthByte len), .squeeze (squeezeArg len)])

/-- BASIC input, L (R209); the host refuses L = 0 (R213). -/
def basicSeq (input : List Byte) (len : Nat) : Option (List Instr) :=
  if len = 0 then none else some (keySetupSeq input ++ [.squeeze (squeezeArg len)])

/-! ### A session: the host issues the commands and takes every byte -/

/-- The host has taken every byte of the running command (R267). -/
def State.drained (s : State) : State := 
  { s with received := s.received ++ s.buffer ++ s.pending, buffer := [], pending := [] }

/-- The commands one after another, each complete before the next (20_memory R58). -/
def runSeq : List Instr → State → Host.Outcome State Fault Refusal
  | [], s => .next s
  | i :: is, s =>
    match exec i s with
    | .next t => runSeq is t.drained
    | .fault r => .fault r
    | .refused r => .refused r

/-- The bytes a session gives the host (R272), from an engine whose earlier output has been taken. -/
def sessionBytes (is : List Instr) (s : State) : Option (List Byte) :=
  match runSeq is { s with received := [], buffer := [], pending := [] } with
  | .next t => some t.received
  | .fault _ => none
  | .refused _ => none

/-! ### The host's arithmetic and buffers -/

/-- data[v] + ks[v], modulo 256 (R203, R205). -/
def addKeystream (data ks : List Byte) : List Byte := List.zipWith (fun d k => d + k) data ks

/-- data[v] - ks[v], modulo 256 (R204, R206). -/
def subKeystream (data ks : List Byte) : List Byte := List.zipWith (fun d k => d - k) data ks

/-- ENCRYPT data, key (R203), on an engine in state `s`. -/
def encryptData (data key : List Byte) (s : State) : Option (List Byte) :=
  (sessionBytes (keystreamSeq (keySetupSeq key) data.length) s).map (addKeystream data)

/-- DECRYPT data, key (R204). -/
def decryptData (data key : List Byte) (s : State) : Option (List Byte) :=
  (sessionBytes (keystreamSeq (keySetupSeq key) data.length) s).map (subKeystream data)

/-- ENCRYPT_IV data, key, iv (R205). -/
def encryptIvData (data key iv : List Byte) (s : State) : Option (List Byte) :=
  (sessionBytes (keystreamSeq (ivSetupSeq key iv) data.length) s).map (addKeystream data)

/-- DECRYPT_IV data, key, iv (R206). -/
def decryptIvData (data key iv : List Byte) (s : State) : Option (List Byte) :=
  (sessionBytes (keystreamSeq (ivSetupSeq key iv) data.length) s).map (subKeystream data)

/-- The host's result buffer of length L (R212): the engine's bytes, and HOST_UNFILLED, an open parameter, where there is
none. -/
def resultBuffer (unfilled : Nat → Byte) (len : Nat) (bytes : List Byte) : List Byte :=
  (List.range len).map (fun v => bytes.getD v (unfilled v))

end Sys2Proof.Machine
end

