-- ==== Sys2Proof/Safety.lean ====
section
/-! DEFINITION. What claims are stated in: the invariants the spec gives (10_state R23, R29, R30, R35), the states a run can
reach, the frames, and the session premise (70_reset R274). -/

namespace Sys2Proof.Machine

/-- S is a bijection of the byte values onto themselves (R23). -/
def State.IsPermutation (s : State) : Prop := Function.Bijective s.S

/-- The legal values of ERRCODE, and 0 while ERR = 0 (R32, R35). -/
def State.StatusLegal (s : State) : Prop := s.errcode ≤ 4#3 ∧ (s.err = true ↔ s.errcode ≠ 0#3)

/-- The machine's invariant: what every state of every run satisfies. -/
structure State.Inv (s : State) : Prop where
  /-- R8's bound on P_OUT_DEPTH. -/
  config : s.cfg.wf = true
  /-- The memory's canonical form (log entry 5). -/
  canonical : s.mem.wf = true
  /-- R23. -/
  permutation : s.IsPermutation
  /-- R29. -/
  counter : s.a ≤ 128#8
  /-- R30. -/
  stride : s.w.toNat % 2 = 1
  /-- R35. -/
  status : s.StatusLegal
  /-- R84: the output buffer holds at most P_OUT_DEPTH bytes. -/
  buffered : s.buffer.length ≤ s.cfg.outDepth
  /-- One command's output at most is under way (R58, R86). -/
  output : s.buffer.length + s.pending.length ≤ 256

/-- A start of the machine: after reset, with any build parameters R8 allows, any words to present and any edges to come. -/
def State.IsStart (s : State) : Prop :=
  ∃ c : Config, c.wf = true ∧ ∃ (offered : List Word) (edges : List Edge),
    s = { State.resetWith c with offered := offered, edges := edges }

/-- The states of the runs: the host may send any word, delay, take bytes and reset at any time (R273). -/
inductive Reachable : State → Prop where
  | start {s : State} (h : s.IsStart) : Reachable s
  | step {s t : State} (h : Reachable s) (ht : Machine.step s = .next t) : Reachable t

/-- `k` edges, where none stops the machine. -/
def runEdges : Nat → State → Option State
  | 0, s => some s
  | k + 1, s =>
    match step s with
    | .next t => runEdges k t
    | .fault _ => none
    | .refused _ => none

/-- Commands one after another (20_memory R58), whatever the host takes meanwhile. -/
def execAll : List Instr → State → Host.Outcome State Fault Refusal
  | [], s => .next s
  | i :: is, s =>
    match exec i s with
    | .next t => execAll is t
    | .fault r => .fault r
    | .refused r => .refused r

/-! ### Frames -/

/-- The build parameters, the sequencer's signal, the output buffer and the host's side are as before. A command's own bytes go
to `pending`, behind the buffer. -/
structure State.SamePorts (s t : State) : Prop where
  cfg : t.cfg = s.cfg
  working : t.working = s.working
  buffer : t.buffer = s.buffer
  received : t.received = s.received
  offered : t.offered = s.offered
  edges : t.edges = s.edges

/-- ERR and ERRCODE are as before. -/
structure State.SameStatus (s t : State) : Prop where
  err : t.err = s.err
  errcode : t.errcode = s.errcode

/-- The three indices are as before. -/
structure State.SameIndices (s t : State) : Prop where
  i : t.i = s.i
  j : t.j = s.j
  k : t.k = s.k

/-- The six registers are as before. -/
structure State.SameRegisters (s t : State) : Prop where
  a : t.a = s.a
  indices : s.SameIndices t
  w : t.w = s.w
  z : t.z = s.z

/-- The table reads as before, at every index. -/
def State.SameTable (s t : State) : Prop := ∀ v : Byte, t.S v = s.S v

/-- The table after the exchange of two entries (R100): every other entry is as before. -/
structure State.Exchanged (s t : State) (x y : Byte) : Prop where
  first : t.S x = s.S y
  second : t.S y = s.S x
  others : ∀ v : Byte, v ≠ x → v ≠ y → t.S v = s.S v

/-! ### The session premise (70_reset R270, R274) -/

/-- `s` comes after an accepted INIT in the run from `p`: the edge at `p` transfers the INIT, and since then no word was
transferred and no reset came, so that BUSY may still be 1. It is a relation between the two states and not a predicate of `s`:
what a state holds does not say whether an INIT or a reset left it. -/
inductive AfterInit (p : State) : State → Prop where
  | accepted {w : Word} {s : State} (transferred : portEvent p = .command w)
      (isInit : decode p.cfg.readback w = .ok .init) (h : step p = .next s) : AfterInit p s
  | waits {s t : State} (h : AfterInit p s) (quiet : portEvent s = .busy ∨ portEvent s = .idle) (ht : step s = .next t) :
      AfterInit p t

/-- CLEAN_SESSION (R274), for a session that goes on with the words `session` from `s` and began with the INIT transferred at
`p`. -/
structure CleanSession (session : List Word) (p s : State) : Prop where
  /-- It holds right after an accepted INIT, and after nothing else, a reset least of all. -/
  begun : AfterInit p s
  identity : ∀ v : Byte, s.S v = v
  registers : s.a = 0#8 ∧ s.i = 0#8 ∧ s.j = 0#8 ∧ s.k = 0#8 ∧ s.w = 1#8 ∧ s.z = 0#8
  status : s.err = false ∧ s.errcode = 0#3
  idle : s.busy = false ∧ s.buffer = []
  /-- The host owns the engine for the whole session (R270): of the words that all host agents present, interleaved in
  `offered`, the session's come first, with none of another agent's before or between them (log entry 15). -/
  owned : session <+: s.offered

end Sys2Proof.Machine
end

