-- ==== Sys2Proof/Certificates/Slice0/Obligations.lean ====
section
/-! DEFINITION. The statements for the provers, from the numbered rules of the spec. OBLIGATIONS.json lists them. -/

open Sys2Proof Sys2Proof.Machine

/-! ### Encoding (30_encoding R70 to R77) -/

/-- R74, R76: words written out from the opcode map read as their commands, rejected words by their causes, and 242 opcodes are
illegal. -/
def Obligations.TabledWordsDecode : Prop :=
  decode true 0x01000000#32 = .ok .init ∧ decode true 0x0200FF01#32 = .ok (.swap 0x01#8 0xFF#8) ∧
  decode true 0x1000000F#32 = .ok (.absorbNibble 15#4) ∧ decode true 0x11000041#32 = .ok (.absorbByte 0x41#8) ∧
  decode true 0x12000000#32 = .ok .absorbStop ∧ decode true 0x20000000#32 = .ok .update ∧
  decode true 0x21000000#32 = .ok .whip ∧ decode true 0x22000000#32 = .ok .crush ∧
  decode true 0x23000000#32 = .ok .shuffle ∧ decode true 0x30000000#32 = .ok .output ∧
  decode true 0x31000000#32 = .ok .drip ∧ decode true 0x3200012C#32 = .ok (.squeeze 300#16) ∧
  decode true 0x40000081#32 = .ok (.readS 0x81#8) ∧ decode true 0x41000005#32 = .ok (.readReg 5#8) ∧
  decode true 0x00000000#32 = .error .badOpcode ∧ decode true 0xFF123456#32 = .error .badOpcode ∧
  decode true 0x41000106#32 = .error .reservedNonzero ∧ decode true 0x41000006#32 = .error .badRegister ∧
  decode false 0x41000106#32 = .error .readbackDisabled ∧
  ((List.range 256).filter (fun n => (rowOf (BitVec.ofNat 8 n)).isNone)).length = 242

/-- R72 to R75: the word of every well-formed command, with every operand at every value, decodes to that command, on an engine
with readback; on one without, the same holds of every command but READ_S and READ_REG, which are rejected. -/
def Obligations.EncodedCommandDecodesBack : Prop :=
  ∀ i : Instr, i.wf = true →
    decode true (encode i) = .ok i ∧
    decode false (encode i) =
      match i with
      | .readS _ => .error .readbackDisabled
      | .readReg _ => .error .readbackDisabled
      | _ => .ok i

/-- R72 to R75: a word that decodes is the word of the command it decodes to, so no two words are one command, and that command
is well-formed. -/
def Obligations.DecodedWordIsItsEncoding : Prop :=
  ∀ (readback : Bool) (w : Word) (i : Instr), decode readback w = .ok i → i.wf = true ∧ encode i = w

/-- R72, R74: with readback, a word is accepted exactly when it matches a row of the opcode map under the row's mask, and, for
READ_REG, its register number is at most 5. -/
def Obligations.AcceptedWordsMatchTheOpcodeMap : Prop :=
  ∀ w : Word,
    (∃ i, decode true w = .ok i) ↔
      (∃ row ∈ [(0x01000000#32, 0xFFFFFFFF#32), (0x02000000#32, 0xFFFF0000#32), (0x10000000#32, 0xFFFFFFF0#32),
          (0x11000000#32, 0xFFFFFF00#32), (0x12000000#32, 0xFFFFFFFF#32), (0x20000000#32, 0xFFFFFFFF#32),
          (0x21000000#32, 0xFFFFFFFF#32), (0x22000000#32, 0xFFFFFFFF#32), (0x23000000#32, 0xFFFFFFFF#32),
          (0x30000000#32, 0xFFFFFFFF#32), (0x31000000#32, 0xFFFFFFFF#32), (0x32000000#32, 0xFFFF0000#32),
          (0x40000000#32, 0xFFFFFF00#32), (0x41000000#32, 0xFFFFFF00#32)], w &&& row.2 = row.1) ∧
      (w &&& 0xFF000000#32 = 0x41000000#32 → w &&& 0x000000FF#32 ≤ 5#32)

/-- R75, R230, R233: which cause a word is rejected for. The opcodes of R74 with their must-be-zero masks (R72) stand in the
list; the causes come in R233's order. -/
def Obligations.RejectionCauseFollowsThePriority : Prop :=
  let masks : List (Byte × Word) :=
    [(0x01#8, 0x00FFFFFF#32), (0x02#8, 0x00FF0000#32), (0x10#8, 0x00FFFFF0#32), (0x11#8, 0x00FFFF00#32),
     (0x12#8, 0x00FFFFFF#32), (0x20#8, 0x00FFFFFF#32), (0x21#8, 0x00FFFFFF#32), (0x22#8, 0x00FFFFFF#32),
     (0x23#8, 0x00FFFFFF#32), (0x30#8, 0x00FFFFFF#32), (0x31#8, 0x00FFFFFF#32), (0x32#8, 0x00FF0000#32),
     (0x40#8, 0x00FFFF00#32), (0x41#8, 0x00FFFF00#32)]
  ∀ (readback : Bool) (w : Word),
    let opc : Byte := w.extractLsb' 24 8
    ((∀ p ∈ masks, p.1 ≠ opc) → decode readback w = .error .badOpcode) ∧
    ∀ p ∈ masks, p.1 = opc →
      if (opc = 0x40#8 ∨ opc = 0x41#8) ∧ readback = false then decode readback w = .error .readbackDisabled
      else if w &&& p.2 ≠ 0#32 then decode readback w = .error .reservedNonzero
      else if opc = 0x41#8 ∧ 5#8 < w.extractLsb' 0 8 then decode readback w = .error .badRegister
      else ∃ i, decode readback w = .ok i

/-! ### The ports and the step (30_encoding R82 to R86, 60_exceptions R232, 70_reset R260 to R267) -/

/-- R75, R82: at an edge where the engine is ready and a word is offered, a word that decodes is transferred and the step is the
execution of its command, from the state in which the word is consumed and the edge has passed. That the engine is then at work
exactly if it stalls, and emits nothing at this edge, is the model's choice (log entries 3 and 14). The second clause is the same
for the word that `withFetchWord` presents: that it leaves no command running and gives up untaken output is the model's choice
(log entry 2). -/
def Obligations.StepRunsTheDecodedCommand : Prop :=
  (∀ (s : State) (w : Word) (ws : List Word) (i : Instr),
    s.edge.rst = false → s.edge.cmdValid = true → s.busy = false → s.offered = w :: ws →
    decode s.cfg.readback w = .ok i →
    step s = exec i { s with working := s.edge.stall, offered := ws, edges := s.edges.tail }) ∧
  (∀ (s : State) (nbits w : Nat) (i : Instr), decode s.cfg.readback (tableWord nbits w) = .ok i →
    step (s.withFetchWord nbits w) = exec i { s with working := false, buffer := [], pending := [] })

/-- R232, R33, R35: a rejected word is consumed, changes STATUS only (ERR and the code of R230 when ERR was 0, nothing when it
was 1), emits nothing, leaves BUSY 0 and the engine goes on. -/
def Obligations.RejectedWordChangesOnlyStatus : Prop :=
  ∀ (s : State) (w : Word) (ws : List Word) (c : Rejection),
    s.edge.rst = false → s.edge.cmdValid = true → s.busy = false → s.offered = w :: ws →
    decode s.cfg.readback w = .error c →
    ∃ t, step s = .next t ∧ t.mem = s.mem ∧ s.SameRegisters t ∧ t.buffer = s.buffer ∧ t.pending = s.pending ∧ t.received = s.received ∧
      t.offered = ws ∧ t.cfg = s.cfg ∧ t.busy = false ∧
      (s.err = true → s.SameStatus t) ∧
      (s.err = false → t.err = true ∧
        t.errcode = match c with
          | .badOpcode => 1#3
          | .reservedNonzero => 2#3
          | .badRegister => 3#3
          | .readbackDisabled => 4#3)

/-- R82, R84, R266: while BUSY is 1 and rst is 0, no word is transferred, and no byte of the running command is lost or made up.
That the table, the registers and STATUS errors do not change meanwhile is the model's choice, not the hardware's (R38): it
performs a command as one atomic step at the edge that transfers it, as R39 allows (log entries 4 and 13). -/
def Obligations.BusyEngineAcceptsNoWord : Prop :=
  ∀ s : State, s.edge.rst = false → s.busy = true →
    s.cmdReady = false ∧
    ∃ t, step s = .next t ∧ t.offered = s.offered ∧ t.mem = s.mem ∧ s.SameRegisters t ∧ s.SameStatus t ∧ t.cfg = s.cfg ∧
      t.received ++ (t.buffer ++ t.pending) = s.received ++ (s.buffer ++ s.pending)

/-- R84: a byte is presented exactly when the engine is out of reset and the buffer holds one; it is the oldest. A ready host
takes it, and the others move up; from a host that is not ready nothing is taken and nothing in the buffer changes but for a
byte emitted behind. The command is complete when its work is done and its last byte is taken (R33); that an edge without a stall
ends the work, and only such an edge, is the model's choice (log entry 3). -/
def Obligations.ReadyHostTakesTheOldestByte : Prop :=
  ∀ (s : State) (b : Byte) (bs : List Byte), s.edge.rst = false → s.buffer = b :: bs →
    s.outValid = true ∧ s.outData = some b ∧
    (s.edge.outReady = true →
      ∃ t, step s = .next t ∧ t.received = s.received ++ [b] ∧ bs <+: t.buffer ∧
        t.buffer ++ t.pending = bs ++ s.pending ∧
        (t.busy = false ↔ bs = [] ∧ s.pending = [] ∧ (s.working = false ∨ s.edge.stall = false))) ∧
    (s.edge.outReady = false →
      ∃ t, step s = .next t ∧ t.received = s.received ∧ s.buffer <+: t.buffer ∧
        t.buffer ++ t.pending = s.buffer ++ s.pending ∧ t.busy = true)

/-- R84: while P_OUT_DEPTH bytes are in the buffer, the engine waits and no byte is dropped, at any edge of a running command at
which the host takes nothing. With room in the buffer the pace is the model's choice (log entry 3): an edge at which the engine
does not stall emits one byte, the next, and an edge at which it stalls emits none. -/
def Obligations.EngineWaitsWhileTheBufferIsFull : Prop :=
  ∀ s : State, s.edge.rst = false → s.busy = true → (s.edge.outReady = false ∨ s.buffer = []) →
    (s.cfg.outDepth ≤ s.buffer.length ∨ s.edge.stall = true → ∃ t, step s = .next t ∧ t.buffer = s.buffer ∧
      t.pending = s.pending ∧ t.received = s.received) ∧
    (∀ (b : Byte) (bs : List Byte), s.buffer.length < s.cfg.outDepth → s.edge.stall = false → s.pending = b :: bs →
      ∃ t, step s = .next t ∧ t.buffer = s.buffer ++ [b] ∧ t.pending = bs ∧ t.received = s.received)

/-- R260, R261: at an edge with rst = 1 every piece of state takes its reset value, whatever was running; cmd_ready and out_valid
are 0; the bytes the host had taken stay with it. -/
def Obligations.ResetEdgeGivesTheResetState : Prop :=
  ∀ s : State, s.edge.rst = true →
    s.cmdReady = false ∧ s.outValid = false ∧
    ∃ t, step s = .next t ∧ (∀ v : Byte, t.S v = v) ∧ t.a = 0#8 ∧ t.i = 0#8 ∧ t.j = 0#8 ∧ t.k = 0#8 ∧ t.z = 0#8 ∧ t.w = 1#8 ∧
      t.err = false ∧ t.errcode = 0#3 ∧ t.busy = false ∧ t.working = false ∧ t.buffer = [] ∧ t.pending = [] ∧
      t.received = s.received ∧ t.cfg = s.cfg

/-- R41: what reset leaves, for every build of the engine and for the model's reset state. -/
def Obligations.ResetLeavesTheTabledValues : Prop :=
  ∀ s : State, (s = State.reset ∨ ∃ c, s = State.resetWith c) →
    (∀ v : Byte, s.S v = v) ∧ s.a = 0#8 ∧ s.i = 0#8 ∧ s.j = 0#8 ∧ s.k = 0#8 ∧ s.z = 0#8 ∧ s.w = 1#8 ∧
    s.err = false ∧ s.errcode = 0#3 ∧ s.busy = false ∧ s.working = false ∧ s.buffer = [] ∧ s.pending = [] ∧
    s.status = 0x00#8

/-- R32: the bits of STATUS. -/
def Obligations.StatusBitsAreLaidOutAsTabled : Prop :=
  ∀ s : State, s.status.getLsbD 0 = s.busy ∧ s.status.getLsbD 1 = s.err ∧ s.status.extractLsb' 2 3 = s.errcode ∧
    s.status.extractLsb' 5 3 = 0#3

/-- R243: an idle engine with no word offered keeps all of its state. -/
def Obligations.IdleEngineKeepsItsState : Prop :=
  ∀ s : State, s.edge.rst = false → s.busy = false → (s.edge.cmdValid = false ∨ s.offered = []) →
    step s = .next { s with edges := s.edges.tail }

/-- R231: no command and no word stops the machine. -/
def Obligations.NothingStopsTheMachine : Prop :=
  (∀ (i : Instr) (s : State), ∃ t, exec i s = .next t) ∧ ∀ s : State, ∃ t, step s = .next t

/-- R34, R35: while ERR is 1, no edge but a reset and no word but an INIT, accepted, changes ERR or ERRCODE; and ERR becomes 1
only at an edge at which a word is transferred and rejected. That a running INIT has cleared both already at the edge that
transfers it is the model's choice (log entry 13). -/
def Obligations.ErrIsStickyUntilInitOrReset : Prop :=
  ∀ s t : State, step s = .next t → s.edge.rst = false →
    (s.err = true → (s.busy = true ∨ s.offered.head? ≠ some 0x01000000#32) → s.SameStatus t) ∧
    (s.err = false → t.err = true → s.busy = false ∧ s.edge.cmdValid = true ∧
      ∃ w ws c, s.offered = w :: ws ∧ decode s.cfg.readback w = .error c ∧ t.offered = ws)

/-- R33, R84, R267: with a host that does its duty and an engine that does not stall, a running command completes within one edge
for its work and one for each byte, and the host gets its bytes in order. How many edges a command takes is the model's own
(log entry 3), and so is that S, the registers and STATUS errors are then as they were while it ran: the model has performed the
command's effect at the edge that transferred it (log entries 4 and 13). -/
def Obligations.RunningCommandCompletes : Prop :=
  ∀ s : State, s.cfg.wf = true → s.edges = [] →
    ∃ n ≤ 1 + s.buffer.length + s.pending.length,
      runEdges n s = some { s with working := false, buffer := [], pending := [],
                                   received := s.received ++ (s.buffer ++ s.pending) }

/-- R261: a reset can leave the host any prefix of the running command's output, and the engine is then in the reset state. -/
def Obligations.ResetCanLeaveAnyPrefix : Prop :=
  ∀ (s : State) (n : Nat), s.cfg.wf = true → n ≤ (s.buffer ++ s.pending).length →
    ∃ (edges : List Edge) (m : Nat) (t : State),
      runEdges m { s with edges := edges } = some t ∧ t.received = s.received ++ (s.buffer ++ s.pending).take n ∧
      t = { State.resetWith s.cfg with received := t.received, offered := t.offered }

/-! ### Invariants (10_state R22, R23, R29, R30, R35) -/

/-- The invariant holds at every start of the machine, the model's reset state among them. Its memory clause is the model's choice
(log entry 5), and so are the parameters of that reset state (log entry 1). -/
def Obligations.EveryStartMeetsTheInvariant : Prop := State.reset.IsStart ∧ ∀ s : State, s.IsStart → s.Inv

/-- R23, R29, R30, R35, R84, R86: from every state that meets the invariant, a step gives a state that meets it: the memory's canonical
form (the model's choice, log entry 5), S a permutation, a at most 128, w odd, STATUS legal, the output buffer within
P_OUT_DEPTH, one command's output at most. -/
def Obligations.StepKeepsTheInvariant : Prop := ∀ s t : State, s.Inv → step s = .next t → t.Inv

/-- R23, R29, R30: in every state that any host can bring the engine to, S is a bijection, a is at most 128 and w is odd. -/
def Obligations.ReachableStatesAreSound : Prop :=
  ∀ s : State, Reachable s → Function.Bijective s.S ∧ s.a ≤ 128#8 ∧ s.w.toNat % 2 = 1

/-- R22: every command but INIT only permutes the entries of S, whatever they are. -/
def Obligations.CommandsOnlyPermuteTheTable : Prop :=
  ∀ (i : Instr) (s t : State), i ≠ .init → exec i s = .next t → ∃ σ : Equiv.Perm Byte, ∀ v : Byte, t.S v = s.S (σ v)

/-! ### The table (40_table) -/

/-- R101, R102: INIT sets every register and the table to the start of a session and clears ERR and ERRCODE, whatever the state
before; it emits nothing and touches nothing else. -/
def Obligations.InitStartsASession : Prop :=
  ∀ s : State, ∃ t, exec .init s = .next t ∧ (∀ v : Byte, t.S v = v) ∧
    t.a = 0#8 ∧ t.i = 0#8 ∧ t.j = 0#8 ∧ t.k = 0#8 ∧ t.z = 0#8 ∧ t.w = 1#8 ∧ t.err = false ∧ t.errcode = 0#3 ∧
    t.pending = s.pending ∧ s.SamePorts t

/-- R263, R274: INIT leaves the same table, registers and STATUS errors as reset. A state that comes after an accepted INIT, idle
and with the session's words next, meets CLEAN_SESSION, and only such a one does: the run transferred an INIT. When an INIT is
transferred there is such a state, idle at once unless the engine stalls (log entry 3). -/
def Obligations.InitLeavesWhatResetLeaves : Prop :=
  (∀ (s : State) (c : Config), ∃ t, exec .init s = .next t ∧ t.mem = (State.resetWith c).mem ∧
    (State.resetWith c).SameRegisters t ∧ (State.resetWith c).SameStatus t) ∧
  (∀ (session : List Word) (p s : State), AfterInit p s → s.busy = false → session <+: s.offered →
    CleanSession session p s) ∧
  (∀ (session : List Word) (p s : State), CleanSession session p s →
    portEvent p = .command 0x01000000#32 ∧ ∃ u, exec .init p.acceptWord = .next u ∧ step p = .next u) ∧
  (∀ (p : State) (ws : List Word), p.edge.rst = false → p.edge.cmdValid = true → p.busy = false →
    p.offered = 0x01000000#32 :: ws →
    ∃ s, step p = .next s ∧ AfterInit p s ∧ s.offered = ws ∧ (p.edge.stall = false ↔ s.busy = false))

/-- R100, R103: SWAP exchanges the two entries and changes nothing else; with x = y the table is unchanged. -/
def Obligations.SwapExchangesTwoEntries : Prop :=
  ∀ (s : State) (x y : Byte), ∃ t, exec (.swap x y) s = .next t ∧ s.Exchanged t x y ∧ s.SameRegisters t ∧ s.SameStatus t ∧
    t.pending = s.pending ∧ s.SamePorts t ∧ (x = y → s.SameTable t)

/-- R103: two SWAPs of the same entries in a row, in either operand order, restore the state, whole. That equal tables are
equal data is the model's choice (log entry 5). -/
def Obligations.SwapTwiceRestoresTheState : Prop :=
  ∀ (s : State) (x y : Byte), s.mem.wf = true →
    ∃ t, exec (.swap x y) s = .next t ∧ exec (.swap x y) t = .next s ∧ exec (.swap y x) t = .next s

/-! ### Absorption (41_absorption) -/

/-- R120, R124: ABSORB_NIBBLE. Below the threshold it swaps S[a], an entry of the lower half when a is in its range (R29), with
S[(128 + v) mod 256], an entry of 128 to 143, and adds 1 to a; at a = 128 it is SHUFFLE, which sets a to 0, followed by the same. -/
def Obligations.AbsorbNibbleSwapsAndCounts : Prop :=
  ∀ (s : State) (v : Nibble),
    (128 ≤ (128#8 + v.setWidth 8).toNat ∧ (128#8 + v.setWidth 8).toNat ≤ 143) ∧
    (s.a ≤ 128#8 → s.a ≠ 128#8 → s.a.toNat ≤ 127) ∧
    (s.a ≠ 128#8 → ∃ t, exec (.absorbNibble v) s = .next t ∧ s.Exchanged t s.a (128#8 + v.setWidth 8) ∧ t.a = s.a + 1#8 ∧
      s.SameIndices t ∧ t.w = s.w ∧ t.z = s.z ∧ s.SameStatus t ∧ t.pending = s.pending ∧ s.SamePorts t) ∧
    (s.a = 128#8 → ∃ u t, exec .shuffle s = .next u ∧ u.a = 0#8 ∧ exec (.absorbNibble v) s = .next t ∧
      exec (.absorbNibble v) u = .next t ∧ u.Exchanged t 0#8 (128#8 + v.setWidth 8) ∧ t.a = 1#8)

/-- R121: ABSORB_BYTE absorbs the low nibble, then the high nibble. -/
def Obligations.AbsorbByteIsLowThenHighNibble : Prop :=
  ∀ (s : State) (b : Byte), ∃ t u, exec (.absorbNibble (b.extractLsb' 0 4)) s = .next t ∧
    exec (.absorbNibble (b.extractLsb' 4 4)) t = .next u ∧ exec (.absorbByte b) s = .next u

/-- R122: ABSORB_STOP. Below the threshold it writes only a, which it increments; at a = 128 it is SHUFFLE, then the same. -/
def Obligations.AbsorbStopOnlyCounts : Prop :=
  ∀ s : State,
    (s.a ≠ 128#8 → exec .absorbStop s = .next { s with a := s.a + 1#8 }) ∧
    (s.a = 128#8 → ∃ u, exec .shuffle s = .next u ∧ u.a = 0#8 ∧ exec .absorbStop s = .next { u with a := 1#8 })

/-- R123: the threshold is tested at entry, so absorbing nibbles up to a count of 128 shuffles nothing: the indices and the
stride are as before, and a counts the nibbles. -/
def Obligations.AbsorbingUpToTheThresholdDoesNotShuffle : Prop :=
  ∀ (s : State) (vs : List Nibble), s.a.toNat + vs.length ≤ 128 →
    ∃ t, execAll (vs.map Instr.absorbNibble) s = .next t ∧ t.a.toNat = s.a.toNat + vs.length ∧ s.SameIndices t ∧
      t.w = s.w ∧ t.z = s.z ∧ t.pending = s.pending

/-! ### The Scrambler (42_scrambler) -/

/-- R140: UPDATE, in its statements' order: the new i for j, the new i and j for k, then the swap of the new i and j. It never
writes a, w or z. -/
def Obligations.UpdateStepsThePermutation : Prop :=
  ∀ s : State, ∃ t, exec .update s = .next t ∧ t.i = s.i + s.w ∧ t.j = s.k + s.S (s.j + s.S (s.i + s.w)) ∧
    t.k = s.i + s.w + s.k + s.S t.j ∧ s.Exchanged t t.i t.j ∧ (t.i = t.j → s.SameTable t) ∧
    t.a = s.a ∧ t.w = s.w ∧ t.z = s.z ∧ s.SameStatus t ∧ t.pending = s.pending ∧ s.SamePorts t

/-- R141: WHIP is 512 UPDATEs, then w + 2, which keeps an odd w odd; and with an odd w, steps of w take i through all residues. -/
def Obligations.WhipIsFiveHundredTwelveUpdates : Prop :=
  ∀ s : State, ∃ u, execAll (List.replicate 512 .update) s = .next u ∧ u.w = s.w ∧
    exec .whip s = .next { u with w := s.w + 2#8 } ∧ (s.w.toNat % 2 = 1 → (s.w + 2#8).toNat % 2 = 1) ∧
    (s.w.toNat % 2 = 1 → ∀ r : Byte, ∃ n < 256, s.i + BitVec.ofNat 8 n * s.w = r)

/-- R148: WHIP and SHUFFLE leave i unchanged and advance w by 2 and by 6; neither touches z, STATUS or the output. -/
def Obligations.WhipAndShuffleKeepI : Prop :=
  ∀ s : State,
    (∃ t, exec .whip s = .next t ∧ t.i = s.i ∧ t.w = s.w + 2#8 ∧ t.a = s.a ∧ t.z = s.z ∧ s.SameStatus t ∧
      t.pending = s.pending ∧ s.SamePorts t) ∧
    (∃ t, exec .shuffle s = .next t ∧ t.i = s.i ∧ t.w = s.w + 6#8 ∧ t.a = 0#8 ∧ t.z = s.z ∧ s.SameStatus t ∧
      t.pending = s.pending ∧ s.SamePorts t)

/-- R142: CRUSH puts the smaller of each pair of entries v and 255 - v at v and the larger at 255 - v, by the unsigned order; on a
permutation the order is then strict. It changes nothing but S. -/
def Obligations.CrushOrdersEveryPair : Prop :=
  ∀ s : State, ∃ t, exec .crush s = .next t ∧
    (∀ v : Byte, v < 128#8 →
      t.S v = (if s.S (255#8 - v) < s.S v then s.S (255#8 - v) else s.S v) ∧
      t.S (255#8 - v) = (if s.S (255#8 - v) < s.S v then s.S v else s.S (255#8 - v)) ∧
      (s.IsPermutation → t.S v < t.S (255#8 - v))) ∧
    s.SameRegisters t ∧ s.SameStatus t ∧ t.pending = s.pending ∧ s.SamePorts t

/-- R146: a second CRUSH directly after a CRUSH changes nothing. -/
def Obligations.CrushTwiceIsCrushOnce : Prop :=
  ∀ s t : State, exec .crush s = .next t → exec .crush t = .next t

/-- R143: SHUFFLE is three WHIPs and two CRUSHes in their order, then a = 0, and z is neither read nor written. -/
def Obligations.ShuffleIsWhipCrushWhipCrushWhip : Prop :=
  ∀ (s : State) (z : Byte), ∃ u, execAll [.whip, .crush, .whip, .crush, .whip] s = .next u ∧ u.z = s.z ∧
    exec .shuffle s = .next { u with a := 0#8 } ∧
    exec .shuffle { s with z := z } = .next { u with a := 0#8, z := z }

/-- R147: SHUFFLE runs whatever the value of a, and its result does not depend on it. -/
def Obligations.ShuffleIgnoresTheCounter : Prop :=
  ∀ (s : State) (a : Byte), exec .shuffle { s with a := a } = exec .shuffle s

/-! ### Output extraction (43_output) -/

/-- R170, R173: OUTPUT computes z by three reads, emits the new z, and writes nothing else. -/
def Obligations.OutputExtractsByThreeReads : Prop :=
  ∀ s : State, ∃ t, exec .output s = .next t ∧ t.z = s.S (s.j + s.S (s.i + s.S (s.z + s.k))) ∧
    t.pending = s.pending ++ [t.z] ∧ t.mem = s.mem ∧ t.a = s.a ∧ s.SameIndices t ∧ t.w = s.w ∧ s.SameStatus t ∧ s.SamePorts t

/-- R171, R174: with a = 0, DRIP is UPDATE followed by OUTPUT; with a > 0 it is SHUFFLE, which sets a to 0, followed by DRIP. -/
def Obligations.DripShufflesPendingMaterialFirst : Prop :=
  ∀ s : State,
    (s.a = 0#8 → ∃ u t, exec .update s = .next u ∧ exec .output u = .next t ∧ exec .drip s = .next t) ∧
    (0#8 < s.a → ∃ u t, exec .shuffle s = .next u ∧ u.a = 0#8 ∧ exec .drip u = .next t ∧ exec .drip s = .next t)

/-- R172, R175, R176: SQUEEZE n with a = 0 is min(n, 256) DRIPs; with a > 0 it is SHUFFLE, once, followed by them; it emits exactly
min(n, 256) bytes; every n of 256 or more does what 256 does. -/
def Obligations.SqueezeIsShuffleThenDrips : Prop :=
  ∀ (s : State) (n : BitVec 16),
    (∃ t, exec (.squeeze n) s = .next t ∧ ∃ bs : List Byte, bs.length = min n.toNat 256 ∧ t.pending = s.pending ++ bs) ∧
    (s.a = 0#8 → exec (.squeeze n) s = execAll (List.replicate (min n.toNat 256) .drip) s) ∧
    (0#8 < s.a → ∃ u, exec .shuffle s = .next u ∧ exec (.squeeze n) s = execAll (List.replicate (min n.toNat 256) .drip) u) ∧
    (256#16 ≤ n → exec (.squeeze n) s = exec (.squeeze 256#16) s)

/-! ### Readback (44_readback) -/

/-- R190, R191, R193: with P_READBACK, READ_S emits the entry and READ_REG the register of its number; no other state changes. -/
def Obligations.ReadbackEmitsTheSelectedByte : Prop :=
  ∀ s : State, s.cfg.readback = true →
    (∀ x : Byte, exec (.readS x) s = .next { s with pending := s.pending ++ [s.S x] }) ∧
    exec (.readReg 0#8) s = .next { s with pending := s.pending ++ [s.a] } ∧
    exec (.readReg 1#8) s = .next { s with pending := s.pending ++ [s.i] } ∧
    exec (.readReg 2#8) s = .next { s with pending := s.pending ++ [s.j] } ∧
    exec (.readReg 3#8) s = .next { s with pending := s.pending ++ [s.k] } ∧
    exec (.readReg 4#8) s = .next { s with pending := s.pending ++ [s.w] } ∧
    exec (.readReg 5#8) s = .next { s with pending := s.pending ++ [s.z] }

/-- The meanings of READ_S and READ_REG by themselves: without P_READBACK both are rejected with code 4; with it READ_REG of a
number above 5 is rejected with code 3. STATUS alone changes, and only when ERR was 0. That the meanings make these tests again
is the model's choice (log entry 8): no step reaches them, since decoding rejects such words first, by the tests of R75, R191 and
R192. -/
def Obligations.UnavailableReadbackIsRejected : Prop :=
  ∀ (s : State) (x r : Byte),
    (s.cfg.readback = false →
      exec (.readS x) s = .next (if s.err then s else { s with err := true, errcode := 4#3 }) ∧
      exec (.readReg r) s = .next (if s.err then s else { s with err := true, errcode := 4#3 })) ∧
    (s.cfg.readback = true → 5#8 < r →
      exec (.readReg r) s = .next (if s.err then s else { s with err := true, errcode := 3#3 }))

/-- R192: without P_READBACK the words of READ_S and READ_REG are rejected with READBACK_DISABLED and only OUTPUT, DRIP and
SQUEEZE give the host bytes; its value does not change the decoding or the effect of any other command. -/
def Obligations.ReadbackParameterChangesNoOtherCommand : Prop :=
  (∀ w : Word, (w.extractLsb' 24 8 = 0x40#8 ∨ w.extractLsb' 24 8 = 0x41#8) → decode false w = .error .readbackDisabled) ∧
  (∀ (i : Instr) (s t : State), s.cfg.readback = false → exec i s = .next t → t.pending ≠ s.pending →
    i = .output ∨ i = .drip ∨ ∃ n, i = .squeeze n) ∧
  (∀ (b : Bool) (w : Word), w.extractLsb' 24 8 ≠ 0x40#8 → w.extractLsb' 24 8 ≠ 0x41#8 → decode b w = decode true w) ∧
  ∀ (i : Instr) (s t : State) (b : Bool), (∀ x, i ≠ .readS x) → (∀ r, i ≠ .readReg r) → exec i s = .next t →
    exec i { s with cfg := { s.cfg with readback := b } } = .next { t with cfg := { s.cfg with readback := b } }

/-! ### All commands -/

/-- R86: how many bytes each command emits, behind those already emitted; a rejected word emits none. -/
def Obligations.ByteCountIsFixedByTheCommand : Prop :=
  (∀ (s t : State) (w : Word) (ws : List Word) (c : Rejection), s.edge.rst = false → s.busy = false → s.offered = w :: ws →
    decode s.cfg.readback w = .error c → step s = .next t → t.pending = s.pending ∧ t.received = s.received) ∧
  ∀ (i : Instr) (s t : State), exec i s = .next t →
    ∃ bs : List Byte, t.pending = s.pending ++ bs ∧
      bs.length =
        match i with
        | .output => 1
        | .drip => 1
        | .squeeze n => min n.toNat 256
        | .readS _ => if s.cfg.readback then 1 else 0
        | .readReg r => if s.cfg.readback = true ∧ r ≤ 5#8 then 1 else 0
        | _ => 0

/-- R28, R34: the frame of every command: what it leaves unchanged, by the table of R28 (the shuffle that a command may begin
with included). No command touches the build parameters or the ports. Unchanged S means the same memory, byte for byte. -/
def Obligations.EveryCommandWritesOnlyItsRow : Prop :=
  ∀ (i : Instr) (s t : State), exec i s = .next t →
    s.SamePorts t ∧
    match i with
    | .init => t.pending = s.pending
    | .swap _ _ => s.SameRegisters t ∧ s.SameStatus t ∧ t.pending = s.pending
    | .absorbNibble _ => t.z = s.z ∧ s.SameStatus t ∧ t.pending = s.pending ∧
        (s.a ≠ 128#8 → s.SameIndices t ∧ t.w = s.w)
    | .absorbByte _ => t.z = s.z ∧ s.SameStatus t ∧ t.pending = s.pending ∧
        (s.a ≠ 127#8 → s.a ≠ 128#8 → s.SameIndices t ∧ t.w = s.w)
    | .absorbStop => t.z = s.z ∧ s.SameStatus t ∧ t.pending = s.pending ∧
        (s.a ≠ 128#8 → t.mem = s.mem ∧ s.SameIndices t ∧ t.w = s.w)
    | .update => t.a = s.a ∧ t.w = s.w ∧ t.z = s.z ∧ s.SameStatus t ∧ t.pending = s.pending
    | .whip => t.a = s.a ∧ t.z = s.z ∧ s.SameStatus t ∧ t.pending = s.pending
    | .crush => s.SameRegisters t ∧ s.SameStatus t ∧ t.pending = s.pending
    | .shuffle => t.z = s.z ∧ s.SameStatus t ∧ t.pending = s.pending
    | .output => t.mem = s.mem ∧ t.a = s.a ∧ s.SameIndices t ∧ t.w = s.w ∧ s.SameStatus t
    | .drip => s.SameStatus t ∧ (s.a = 0#8 → t.a = s.a ∧ t.w = s.w)
    | .squeeze n => s.SameStatus t ∧ (s.a = 0#8 → t.a = s.a ∧ t.w = s.w) ∧
        (s.a = 0#8 → n = 0#16 → t.mem = s.mem ∧ s.SameRegisters t)
    | .readS _ => t.mem = s.mem ∧ s.SameRegisters t ∧ (s.cfg.readback = true → s.SameStatus t)
    | .readReg r => t.mem = s.mem ∧ s.SameRegisters t ∧ (s.cfg.readback = true → r ≤ 5#8 → s.SameStatus t)

/-- R149, R271: the table of work, for every command, as a run that counts each update, comparison, swap and byte finds it: the
run ends in the state that the command gives. A CRUSH swaps nothing where every pair is in order already. -/
def Obligations.WorkIsBounded : Prop :=
  ∀ (i : Instr) (s : State),
    exec i s = .next (countedRun i s).state ∧
    let work := (countedRun i s).work
    match i with
    | .init => work.Within 0 0 0 0 0
    | .swap _ _ => work.Within 0 0 1 1 0
    | .absorbNibble _ => if s.a = 128#8 then work.Within 1536 256 1537 1793 0 else work.Within 0 0 1 1 0
    | .absorbByte _ =>
      if s.a = 127#8 ∨ s.a = 128#8 then work.Within 1536 256 1538 1794 0 else work.Within 0 0 2 2 0
    | .absorbStop => if s.a = 128#8 then work.Within 1536 256 1536 1792 0 else work.Within 0 0 0 0 0
    | .update => work.Within 1 0 1 1 0
    | .whip => work.Within 512 0 512 512 0
    | .crush => work.Within 0 128 0 128 0 ∧
        ((∀ v : Byte, v < 128#8 → s.S v ≤ s.S (255#8 - v)) → work.swaps = 0)
    | .shuffle => work.Within 1536 256 1536 1792 0
    | .output => work.Within 0 0 0 0 1
    | .drip => if s.a = 0#8 then work.Within 1 0 1 1 1 else work.Within 1537 256 1537 1793 1
    | .squeeze n =>
      let bytes := min n.toNat 256
      if s.a = 0#8 then work.Within bytes 0 bytes bytes bytes
      else work.Within (1536 + bytes) 256 (1536 + bytes) (1792 + bytes) bytes
    | .readS _ => work.Within 0 0 0 0 (if s.cfg.readback then 1 else 0)
    | .readReg r => work.Within 0 0 0 0 (if s.cfg.readback = true ∧ r ≤ 5#8 then 1 else 0)

/-! ### Host sequences (45_host_sequences) and the assembler (30_encoding R79) -/

/-- R200, R215: the bytes of a session that begins with INIT do not depend on the state the engine was in, only on its
P_READBACK. -/
def Obligations.SessionBytesDependOnNoEarlierState : Prop :=
  ∀ (is : List Instr) (s s' : State), s.cfg.readback = s'.cfg.readback →
    ∃ bs, sessionBytes (.init :: is) s = some bs ∧ sessionBytes (.init :: is) s' = some bs

/-- R272, R274: a session from CLEAN_SESSION runs to its end: when the host drains it, all of the session's words are consumed, the
last command is complete, and the host has, behind the bytes it had, the bytes of the commands one after another; ERR is 0 at the
end if no word of the session is rejected. That the host's words and edges are data, and the pace, are the model's choice (log
entries 2, 3 and 15). -/
def Obligations.CleanSessionRunsToItsEnd : Prop :=
  ∀ (is : List Instr) (p s : State), CleanSession (is.map encode) p s → (∀ i ∈ is, i.wf = true) → s.cfg.wf = true →
    s.edges = [] →
    ∃ (n : Nat) (t : State) (bs : List Byte),
      runEdges n s = some t ∧ sessionBytes (.init :: is) p = some bs ∧ t.received = s.received ++ bs ∧ t.busy = false ∧
      t.offered = s.offered.drop is.length ∧
      ((∀ i ∈ is, decode s.cfg.readback (encode i) = .ok i) → t.err = false)

/-- R214: decryption undoes encryption, with and without an IV, for every key, IV and data and on engines in any two states. -/
def Obligations.DecryptUndoesEncrypt : Prop :=
  ∀ (data key iv : List Byte) (s s' : State),
    (∃ c, encryptData data key s = some c ∧ c.length = data.length ∧ decryptData c key s' = some data) ∧
    (∃ c, encryptIvData data key iv s = some c ∧ c.length = data.length ∧ decryptIvData c key iv s' = some data)

/-- R207 to R213: MAC, HASH and BASIC give min(L, 256) bytes for every L of 1 or more, and are refused for L = 0. -/
def Obligations.DigestLengthIsCappedAt256 : Prop :=
  ∀ (message key : List Byte) (len : Nat) (s : State),
    if len = 0 then macSeq message key len = none ∧ hashSeq message len = none ∧ basicSeq message len = none
    else
      (∃ is bs, macSeq message key len = some is ∧ sessionBytes is s = some bs ∧ bs.length = min len 256) ∧
      (∃ is bs, hashSeq message len = some is ∧ sessionBytes is s = some bs ∧ bs.length = min len 256) ∧
      (∃ is bs, basicSeq message len = some is ∧ sessionBytes is s = some bs ∧ bs.length = min len 256)

/-- R58, R82, R84: the ports run a sequence of commands as the sequence says. When an idle engine is offered the words of
well-formed commands and the host does its duty, some number of edges later every word is consumed and the state, with the bytes
the host has taken, is that of performing the commands one after another. That a step is an edge, and the host's words and edges
data, is the model's choice (log entries 2 and 3). -/
def Obligations.PortsRunTheOfferedCommands : Prop :=
  ∀ (is : List Instr) (s t : State),
    (∀ i ∈ is, i.wf = true) → s.cfg.wf = true → s.busy = false → s.edges = [] → s.offered = is.map encode →
    runSeq is s = .next t →
    ∃ n, runEdges n s = some { t with offered := [] }

/-- R79: the assembler gives the word of a command whose operands fit, and no word for an operand that does not. -/
def Obligations.AssemblerRejectsUnfitOperands : Prop :=
  (∀ n : Nat, asmCommand "ABSORB_NIBBLE" [.number n] = if n < 16 then some (.absorbNibble (BitVec.ofNat 4 n)) else none) ∧
  (∀ n : Nat, asmCommand "ABSORB_BYTE" [.number n] = if n < 256 then some (.absorbByte (BitVec.ofNat 8 n)) else none) ∧
  (∀ n : Nat, asmCommand "READ_S" [.number n] = if n < 256 then some (.readS (BitVec.ofNat 8 n)) else none) ∧
  (∀ n : Nat, asmCommand "SQUEEZE" [.number n] = if n < 65536 then some (.squeeze (BitVec.ofNat 16 n)) else none) ∧
  (∀ n : Nat, asmCommand "READ_REG" [.number n] = if n < 6 then some (.readReg (BitVec.ofNat 8 n)) else none) ∧
  (∀ m n : Nat, asmCommand "SWAP" [.number m, .number n] =
    if m < 256 ∧ n < 256 then some (.swap (BitVec.ofNat 8 m) (BitVec.ofNat 8 n)) else none) ∧
  (∀ (mnemonic : String) (ops : List AsmToken) (i : Instr), asmCommand mnemonic ops = some i → i.wf = true)
end

