-- ==== Sys2Proof/Laws/Memory.lean ====
section
/-! SUPPORT. The laws of the memory: a read after a write, for every list whatever its form, and the canonical form that every
operation keeps. -/

namespace Sys2Proof.Machine

@[simp] theorem Memory.read_nil (n : Nat) : Memory.read [] n = Memory.unlisted n := rfl

theorem Memory.read_remove_same (m : Memory) (n : Nat) : (Memory.remove m n).read n = Memory.unlisted n := by
  induction m with
  | nil => rfl
  | cons c m ih => by_cases h : c.1 = n <;> simp [Memory.remove, Memory.read, h, ih]

theorem Memory.read_remove_other (m : Memory) {n n' : Nat} (h : n' ≠ n) :
    (Memory.remove m n).read n' = Memory.read m n' := by
  induction m with
  | nil => rfl
  | cons c m ih =>
    by_cases hc : c.1 = n
    · have hn : c.1 ≠ n' := by omega
      simp [Memory.remove, Memory.read, hc, ih, show n ≠ n' by omega]
    · simp [Memory.remove, Memory.read, hc, ih]

theorem Memory.not_listed_remove (m : Memory) (n : Nat) : ∀ c ∈ Memory.remove m n, c.1 ≠ n := by
  induction m with
  | nil => simp [Memory.remove]
  | cons c m ih =>
    by_cases hc : c.1 = n
    · simpa [Memory.remove, hc] using ih
    · simpa [Memory.remove, hc] using ih

theorem Memory.mem_of_mem_remove {m : Memory} {n : Nat} {c : Host.Cell} (h : c ∈ Memory.remove m n) : c ∈ m := by
  induction m with
  | nil => simp [Memory.remove] at h
  | cons d m ih =>
    by_cases hd : d.1 = n
    · simp only [Memory.remove, hd, if_true] at h
      exact List.mem_cons_of_mem _ (ih h)
    · simp only [Memory.remove, hd, if_false, List.mem_cons] at h
      exact h.elim (fun e => e ▸ List.mem_cons_self) (fun e => List.mem_cons_of_mem _ (ih e))

theorem Memory.read_place_same (m : Memory) (n : Nat) (v : Byte) (h : ∀ c ∈ m, c.1 ≠ n) :
    (Memory.place m n v).read n = v := by
  induction m with
  | nil => simp [Memory.place, Memory.read]
  | cons c m ih =>
    have hc : c.1 ≠ n := h c List.mem_cons_self
    by_cases hl : n < c.1
    · simp [Memory.place, Memory.read, hl]
    · simp [Memory.place, Memory.read, hl, hc, ih fun d hd => h d (List.mem_cons_of_mem _ hd)]

theorem Memory.read_place_other (m : Memory) {n n' : Nat} (v : Byte) (h : n' ≠ n) :
    (Memory.place m n v).read n' = Memory.read m n' := by
  induction m with
  | nil => simp [Memory.place, Memory.read, h.symm]
  | cons c m ih =>
    by_cases hl : n < c.1
    · simp [Memory.place, Memory.read, hl, h.symm]
    · simp [Memory.place, Memory.read, hl, ih]

/-- What a write does: the written index reads as the value, every other index as before. -/
theorem Memory.read_write (m : Memory) (n n' : Nat) (v : Byte) :
    (Memory.write m n v).read n' = if n' = n then v else Memory.read m n' := by
  by_cases h : n' = n
  · subst h
    by_cases hv : v = Memory.unlisted n'
    · simp [Memory.write, hv, Memory.read_remove_same]
    · simp [Memory.write, hv, Memory.read_place_same _ _ _ (Memory.not_listed_remove m n')]
  · by_cases hv : v = Memory.unlisted n
    · simp [Memory.write, hv, h, Memory.read_remove_other m h]
    · simp [Memory.write, hv, h, Memory.read_place_other _ v h, Memory.read_remove_other m h]

/-! ### The canonical form -/

theorem Memory.wf_cons (c : Host.Cell) (m : Memory) :
    Memory.wf (c :: m) = true ↔
      c.1 < 256 ∧ c.2 ≠ Memory.unlisted c.1 ∧ (∀ d ∈ m, c.1 < d.1) ∧ Memory.wf m = true := by
  simp [Memory.wf, and_assoc]

theorem Memory.wf_remove {m : Memory} (h : Memory.wf m = true) (n : Nat) : (Memory.remove m n).wf = true := by
  induction m with
  | nil => rfl
  | cons c m ih =>
    obtain ⟨hlt, hv, hr, hm⟩ := (Memory.wf_cons c m).mp h
    by_cases hc : c.1 = n
    · simpa [Memory.remove, hc] using ih hm
    · simp only [Memory.remove, hc, if_false]
      exact (Memory.wf_cons _ _).mpr ⟨hlt, hv, fun d hd => hr d (Memory.mem_of_mem_remove hd), ih hm⟩

theorem Memory.mem_place {m : Memory} {n : Nat} {v : Byte} {d : Host.Cell} (h : d ∈ Memory.place m n v) :
    d = (n, v) ∨ d ∈ m := by
  induction m with
  | nil => simpa [Memory.place] using h
  | cons c m ih =>
    by_cases hl : n < c.1
    · simpa [Memory.place, hl] using h
    · simp only [Memory.place, hl, if_false, List.mem_cons] at h ⊢
      rcases h with h | h
      · exact .inr (.inl h)
      · exact (ih h).imp_right .inr

theorem Memory.wf_place {m : Memory} {n : Nat} {v : Byte} (h : Memory.wf m = true) (hn : n < 256)
    (hv : v ≠ Memory.unlisted n) (hm : ∀ c ∈ m, c.1 ≠ n) : (Memory.place m n v).wf = true := by
  induction m with
  | nil => exact (Memory.wf_cons _ _).mpr ⟨hn, hv, by simp, rfl⟩
  | cons c m ih =>
    obtain ⟨hlt, hcv, hr, hw⟩ := (Memory.wf_cons c m).mp h
    have hc : c.1 ≠ n := hm c List.mem_cons_self
    by_cases hl : n < c.1
    · simp only [Memory.place, hl, if_true]
      refine (Memory.wf_cons _ _).mpr ⟨hn, hv, fun d hd => ?_, h⟩
      rcases List.mem_cons.mp hd with rfl | hd
      · exact hl
      · exact lt_trans hl (hr d hd)
    · simp only [Memory.place, hl, if_false]
      refine (Memory.wf_cons _ _).mpr ⟨hlt, hcv, fun d hd => ?_, ih hw fun d hd => hm d (List.mem_cons_of_mem _ hd)⟩
      rcases Memory.mem_place hd with rfl | hd
      · exact lt_of_le_of_ne (not_lt.mp hl) hc
      · exact hr d hd

/-- A write at an index of the table keeps the canonical form. -/
theorem Memory.wf_write {m : Memory} (h : Memory.wf m = true) {n : Nat} (hn : n < 256) (v : Byte) :
    (Memory.write m n v).wf = true := by
  by_cases hv : v = Memory.unlisted n
  · simpa [Memory.write, hv] using Memory.wf_remove h n
  · simpa [Memory.write, hv] using Memory.wf_place (Memory.wf_remove h n) hn hv (Memory.not_listed_remove m n)

/-- In the canonical form, what is listed at an index is what the index reads as, and is not the unlisted value. -/
theorem Memory.read_of_mem {m : Memory} (h : Memory.wf m = true) {c : Host.Cell} (hc : c ∈ m) :
    Memory.read m c.1 = c.2 := by
  induction m with
  | nil => simp at hc
  | cons d m ih =>
    obtain ⟨-, -, hr, hw⟩ := (Memory.wf_cons d m).mp h
    rcases List.mem_cons.mp hc with rfl | hc
    · simp [Memory.read]
    · have : d.1 ≠ c.1 := (hr c hc).ne
      simp [Memory.read, this, ih hw hc]

theorem Memory.read_of_not_listed {m : Memory} {n : Nat} (h : ∀ c ∈ m, c.1 ≠ n) :
    Memory.read m n = Memory.unlisted n := by
  induction m with
  | nil => rfl
  | cons c m ih =>
    simp [Memory.read, h c List.mem_cons_self, ih fun d hd => h d (List.mem_cons_of_mem _ hd)]

/-- Equal memories are equal data: two memories in canonical form that read alike are the same list. -/
theorem Memory.ext_of_wf {m m' : Memory} (h : Memory.wf m = true) (h' : Memory.wf m' = true)
    (hr : ∀ n, Memory.read m n = Memory.read m' n) : m = m' := by
  induction m generalizing m' with
  | nil =>
    cases m' with
    | nil => rfl
    | cons d m' =>
      have := hr d.1
      rw [Memory.read_of_mem h' List.mem_cons_self] at this
      exact absurd this.symm ((Memory.wf_cons d m').mp h').2.1
  | cons c m ih =>
    obtain ⟨-, hv, hrise, hw⟩ := (Memory.wf_cons c m).mp h
    cases m' with
    | nil =>
      have := hr c.1
      rw [Memory.read_of_mem h List.mem_cons_self] at this
      exact absurd this hv
    | cons d m' =>
      obtain ⟨-, hv', hrise', hw'⟩ := (Memory.wf_cons d m').mp h'
      have hkey : c.1 = d.1 := by
        rcases lt_trichotomy c.1 d.1 with hlt | heq | hgt
        · exfalso
          have hn : ∀ e ∈ d :: m', e.1 ≠ c.1 := fun e he => by
            rcases List.mem_cons.mp he with rfl | he
            · exact hlt.ne'
            · exact (lt_trans hlt (hrise' e he)).ne'
          have := hr c.1
          rw [Memory.read_of_mem h List.mem_cons_self, Memory.read_of_not_listed hn] at this
          exact hv this
        · exact heq
        · exfalso
          have hn : ∀ e ∈ c :: m, e.1 ≠ d.1 := fun e he => by
            rcases List.mem_cons.mp he with rfl | he
            · exact hgt.ne'
            · exact (lt_trans hgt (hrise e he)).ne'
          have := hr d.1
          rw [Memory.read_of_mem h' List.mem_cons_self, Memory.read_of_not_listed hn] at this
          exact hv' this.symm
      have hval : c.2 = d.2 := by
        have := hr c.1
        rwa [Memory.read_of_mem h List.mem_cons_self, hkey, Memory.read_of_mem h' List.mem_cons_self] at this
      have hcd : c = d := Prod.ext hkey hval
      subst hcd
      rw [ih hw hw' fun n => ?_]
      by_cases hn : n = c.1
      · subst hn
        rw [Memory.read_of_not_listed fun e he => (hrise e he).ne',
          Memory.read_of_not_listed fun e he => (hrise' e he).ne']
      · have := hr n
        simpa [Memory.read, Ne.symm hn] using this

end Sys2Proof.Machine
end

