-- ==== Sys2Proof/Laws/State.lean ====
section
/-! SUPPORT. The small lemmas of the state's updates: for each named operation, one lemma per field it leaves or sets. -/

namespace Sys2Proof.Machine

/-! ### The table -/

/-- Writing any other field leaves the table. -/
theorem State.S_def (s : State) (x : Byte) : s.S x = s.mem.read x.toNat := rfl

/-- What a swap does to the table (R100). -/
theorem State.S_swap (s : State) (x y v : Byte) :
    (s.swap x y).S v = if v = x then s.S y else if v = y then s.S x else s.S v := by
  simp only [State.S, State.swap, Memory.read_write, BitVec.toNat_inj]
  split_ifs with h1 h2 h2 <;> simp_all

theorem State.wf_swap {s : State} (h : s.mem.wf = true) (x y : Byte) : (s.swap x y).mem.wf = true :=
  Memory.wf_write (Memory.wf_write h x.isLt _) y.isLt _

@[simp] theorem State.swap_cfg (s : State) (x y : Byte) : (s.swap x y).cfg = s.cfg := rfl
@[simp] theorem State.swap_a (s : State) (x y : Byte) : (s.swap x y).a = s.a := rfl
@[simp] theorem State.swap_i (s : State) (x y : Byte) : (s.swap x y).i = s.i := rfl
@[simp] theorem State.swap_j (s : State) (x y : Byte) : (s.swap x y).j = s.j := rfl
@[simp] theorem State.swap_k (s : State) (x y : Byte) : (s.swap x y).k = s.k := rfl
@[simp] theorem State.swap_w (s : State) (x y : Byte) : (s.swap x y).w = s.w := rfl
@[simp] theorem State.swap_z (s : State) (x y : Byte) : (s.swap x y).z = s.z := rfl
@[simp] theorem State.swap_err (s : State) (x y : Byte) : (s.swap x y).err = s.err := rfl
@[simp] theorem State.swap_errcode (s : State) (x y : Byte) : (s.swap x y).errcode = s.errcode := rfl
@[simp] theorem State.swap_working (s : State) (x y : Byte) : (s.swap x y).working = s.working := rfl
@[simp] theorem State.swap_buffer (s : State) (x y : Byte) : (s.swap x y).buffer = s.buffer := rfl
@[simp] theorem State.swap_pending (s : State) (x y : Byte) : (s.swap x y).pending = s.pending := rfl
@[simp] theorem State.swap_received (s : State) (x y : Byte) : (s.swap x y).received = s.received := rfl
@[simp] theorem State.swap_offered (s : State) (x y : Byte) : (s.swap x y).offered = s.offered := rfl
@[simp] theorem State.swap_edges (s : State) (x y : Byte) : (s.swap x y).edges = s.edges := rfl

/-! ### stepIndices -/

@[simp] theorem State.stepIndices_cfg (s : State) : s.stepIndices.cfg = s.cfg := rfl
@[simp] theorem State.stepIndices_mem (s : State) : s.stepIndices.mem = s.mem := rfl
@[simp] theorem State.stepIndices_a (s : State) : s.stepIndices.a = s.a := rfl
@[simp] theorem State.stepIndices_w (s : State) : s.stepIndices.w = s.w := rfl
@[simp] theorem State.stepIndices_z (s : State) : s.stepIndices.z = s.z := rfl
@[simp] theorem State.stepIndices_err (s : State) : s.stepIndices.err = s.err := rfl
@[simp] theorem State.stepIndices_errcode (s : State) : s.stepIndices.errcode = s.errcode := rfl
@[simp] theorem State.stepIndices_working (s : State) : s.stepIndices.working = s.working := rfl
@[simp] theorem State.stepIndices_buffer (s : State) : s.stepIndices.buffer = s.buffer := rfl
@[simp] theorem State.stepIndices_pending (s : State) : s.stepIndices.pending = s.pending := rfl
@[simp] theorem State.stepIndices_received (s : State) : s.stepIndices.received = s.received := rfl
@[simp] theorem State.stepIndices_offered (s : State) : s.stepIndices.offered = s.offered := rfl
@[simp] theorem State.stepIndices_edges (s : State) : s.stepIndices.edges = s.edges := rfl
@[simp] theorem State.stepIndices_S (s : State) (x : Byte) : s.stepIndices.S x = s.S x := rfl
@[simp] theorem State.stepIndices_i (s : State) : s.stepIndices.i = s.i + s.w := rfl
@[simp] theorem State.stepIndices_j (s : State) : s.stepIndices.j = s.k + s.S (s.j + s.S (s.i + s.w)) := rfl
@[simp] theorem State.stepIndices_k (s : State) :
    s.stepIndices.k = s.i + s.w + s.k + s.S (s.k + s.S (s.j + s.S (s.i + s.w))) := rfl

/-! ### setA, setW and setZ -/

@[simp] theorem State.setA_cfg (s : State) (v : Byte) : (s.setA v).cfg = s.cfg := rfl
@[simp] theorem State.setA_mem (s : State) (v : Byte) : (s.setA v).mem = s.mem := rfl
@[simp] theorem State.setA_a (s : State) (v : Byte) : (s.setA v).a = v := rfl
@[simp] theorem State.setA_i (s : State) (v : Byte) : (s.setA v).i = s.i := rfl
@[simp] theorem State.setA_j (s : State) (v : Byte) : (s.setA v).j = s.j := rfl
@[simp] theorem State.setA_k (s : State) (v : Byte) : (s.setA v).k = s.k := rfl
@[simp] theorem State.setA_w (s : State) (v : Byte) : (s.setA v).w = s.w := rfl
@[simp] theorem State.setA_z (s : State) (v : Byte) : (s.setA v).z = s.z := rfl
@[simp] theorem State.setA_err (s : State) (v : Byte) : (s.setA v).err = s.err := rfl
@[simp] theorem State.setA_errcode (s : State) (v : Byte) : (s.setA v).errcode = s.errcode := rfl
@[simp] theorem State.setA_working (s : State) (v : Byte) : (s.setA v).working = s.working := rfl
@[simp] theorem State.setA_buffer (s : State) (v : Byte) : (s.setA v).buffer = s.buffer := rfl
@[simp] theorem State.setA_pending (s : State) (v : Byte) : (s.setA v).pending = s.pending := rfl
@[simp] theorem State.setA_received (s : State) (v : Byte) : (s.setA v).received = s.received := rfl
@[simp] theorem State.setA_offered (s : State) (v : Byte) : (s.setA v).offered = s.offered := rfl
@[simp] theorem State.setA_edges (s : State) (v : Byte) : (s.setA v).edges = s.edges := rfl
@[simp] theorem State.setA_S (s : State) (v x : Byte) : (s.setA v).S x = s.S x := rfl
@[simp] theorem State.setW_cfg (s : State) (v : Byte) : (s.setW v).cfg = s.cfg := rfl
@[simp] theorem State.setW_mem (s : State) (v : Byte) : (s.setW v).mem = s.mem := rfl
@[simp] theorem State.setW_a (s : State) (v : Byte) : (s.setW v).a = s.a := rfl
@[simp] theorem State.setW_i (s : State) (v : Byte) : (s.setW v).i = s.i := rfl
@[simp] theorem State.setW_j (s : State) (v : Byte) : (s.setW v).j = s.j := rfl
@[simp] theorem State.setW_k (s : State) (v : Byte) : (s.setW v).k = s.k := rfl
@[simp] theorem State.setW_w (s : State) (v : Byte) : (s.setW v).w = v := rfl
@[simp] theorem State.setW_z (s : State) (v : Byte) : (s.setW v).z = s.z := rfl
@[simp] theorem State.setW_err (s : State) (v : Byte) : (s.setW v).err = s.err := rfl
@[simp] theorem State.setW_errcode (s : State) (v : Byte) : (s.setW v).errcode = s.errcode := rfl
@[simp] theorem State.setW_working (s : State) (v : Byte) : (s.setW v).working = s.working := rfl
@[simp] theorem State.setW_buffer (s : State) (v : Byte) : (s.setW v).buffer = s.buffer := rfl
@[simp] theorem State.setW_pending (s : State) (v : Byte) : (s.setW v).pending = s.pending := rfl
@[simp] theorem State.setW_received (s : State) (v : Byte) : (s.setW v).received = s.received := rfl
@[simp] theorem State.setW_offered (s : State) (v : Byte) : (s.setW v).offered = s.offered := rfl
@[simp] theorem State.setW_edges (s : State) (v : Byte) : (s.setW v).edges = s.edges := rfl
@[simp] theorem State.setW_S (s : State) (v x : Byte) : (s.setW v).S x = s.S x := rfl
@[simp] theorem State.setZ_cfg (s : State) (v : Byte) : (s.setZ v).cfg = s.cfg := rfl
@[simp] theorem State.setZ_mem (s : State) (v : Byte) : (s.setZ v).mem = s.mem := rfl
@[simp] theorem State.setZ_a (s : State) (v : Byte) : (s.setZ v).a = s.a := rfl
@[simp] theorem State.setZ_i (s : State) (v : Byte) : (s.setZ v).i = s.i := rfl
@[simp] theorem State.setZ_j (s : State) (v : Byte) : (s.setZ v).j = s.j := rfl
@[simp] theorem State.setZ_k (s : State) (v : Byte) : (s.setZ v).k = s.k := rfl
@[simp] theorem State.setZ_w (s : State) (v : Byte) : (s.setZ v).w = s.w := rfl
@[simp] theorem State.setZ_z (s : State) (v : Byte) : (s.setZ v).z = v := rfl
@[simp] theorem State.setZ_err (s : State) (v : Byte) : (s.setZ v).err = s.err := rfl
@[simp] theorem State.setZ_errcode (s : State) (v : Byte) : (s.setZ v).errcode = s.errcode := rfl
@[simp] theorem State.setZ_working (s : State) (v : Byte) : (s.setZ v).working = s.working := rfl
@[simp] theorem State.setZ_buffer (s : State) (v : Byte) : (s.setZ v).buffer = s.buffer := rfl
@[simp] theorem State.setZ_pending (s : State) (v : Byte) : (s.setZ v).pending = s.pending := rfl
@[simp] theorem State.setZ_received (s : State) (v : Byte) : (s.setZ v).received = s.received := rfl
@[simp] theorem State.setZ_offered (s : State) (v : Byte) : (s.setZ v).offered = s.offered := rfl
@[simp] theorem State.setZ_edges (s : State) (v : Byte) : (s.setZ v).edges = s.edges := rfl
@[simp] theorem State.setZ_S (s : State) (v x : Byte) : (s.setZ v).S x = s.S x := rfl

/-! ### emit -/

@[simp] theorem State.emit_cfg (s : State) (b : Byte) : (s.emit b).cfg = s.cfg := rfl
@[simp] theorem State.emit_mem (s : State) (b : Byte) : (s.emit b).mem = s.mem := rfl
@[simp] theorem State.emit_S (s : State) (b x : Byte) : (s.emit b).S x = s.S x := rfl
@[simp] theorem State.emit_a (s : State) (b : Byte) : (s.emit b).a = s.a := rfl
@[simp] theorem State.emit_i (s : State) (b : Byte) : (s.emit b).i = s.i := rfl
@[simp] theorem State.emit_j (s : State) (b : Byte) : (s.emit b).j = s.j := rfl
@[simp] theorem State.emit_k (s : State) (b : Byte) : (s.emit b).k = s.k := rfl
@[simp] theorem State.emit_w (s : State) (b : Byte) : (s.emit b).w = s.w := rfl
@[simp] theorem State.emit_z (s : State) (b : Byte) : (s.emit b).z = s.z := rfl
@[simp] theorem State.emit_err (s : State) (b : Byte) : (s.emit b).err = s.err := rfl
@[simp] theorem State.emit_errcode (s : State) (b : Byte) : (s.emit b).errcode = s.errcode := rfl
@[simp] theorem State.emit_working (s : State) (b : Byte) : (s.emit b).working = s.working := rfl
@[simp] theorem State.emit_buffer (s : State) (b : Byte) : (s.emit b).buffer = s.buffer := rfl
@[simp] theorem State.emit_pending (s : State) (b : Byte) : (s.emit b).pending = s.pending ++ [b] := rfl
@[simp] theorem State.emit_received (s : State) (b : Byte) : (s.emit b).received = s.received := rfl
@[simp] theorem State.emit_offered (s : State) (b : Byte) : (s.emit b).offered = s.offered := rfl
@[simp] theorem State.emit_edges (s : State) (b : Byte) : (s.emit b).edges = s.edges := rfl

/-! ### reject -/

/-- Everything a rejection can do (R232): with ERR set nothing, else ERR and ERRCODE. -/
theorem State.reject_cases (s : State) (c : Rejection) :
    (s.err = true ∧ s.reject c = s) ∨
    (s.err = false ∧ s.reject c = { s with err := true, errcode := rejectionCode c }) := by
  cases h : s.err
  · exact .inr ⟨rfl, by simp [State.reject, h]⟩
  · exact .inl ⟨rfl, by simp [State.reject, h]⟩

@[simp] theorem State.reject_cfg (s : State) (c : Rejection) : (s.reject c).cfg = s.cfg := by
  unfold State.reject; split <;> rfl
@[simp] theorem State.reject_mem (s : State) (c : Rejection) : (s.reject c).mem = s.mem := by
  unfold State.reject; split <;> rfl
@[simp] theorem State.reject_S (s : State) (c : Rejection) (x : Byte) : (s.reject c).S x = s.S x := by
  unfold State.reject; split <;> rfl
@[simp] theorem State.reject_a (s : State) (c : Rejection) : (s.reject c).a = s.a := by
  unfold State.reject; split <;> rfl
@[simp] theorem State.reject_i (s : State) (c : Rejection) : (s.reject c).i = s.i := by
  unfold State.reject; split <;> rfl
@[simp] theorem State.reject_j (s : State) (c : Rejection) : (s.reject c).j = s.j := by
  unfold State.reject; split <;> rfl
@[simp] theorem State.reject_k (s : State) (c : Rejection) : (s.reject c).k = s.k := by
  unfold State.reject; split <;> rfl
@[simp] theorem State.reject_w (s : State) (c : Rejection) : (s.reject c).w = s.w := by
  unfold State.reject; split <;> rfl
@[simp] theorem State.reject_z (s : State) (c : Rejection) : (s.reject c).z = s.z := by
  unfold State.reject; split <;> rfl
@[simp] theorem State.reject_err (s : State) (c : Rejection) : (s.reject c).err = true := by
  unfold State.reject; split <;> simp_all
@[simp] theorem State.reject_working (s : State) (c : Rejection) : (s.reject c).working = s.working := by
  unfold State.reject; split <;> rfl
@[simp] theorem State.reject_buffer (s : State) (c : Rejection) : (s.reject c).buffer = s.buffer := by
  unfold State.reject; split <;> rfl
@[simp] theorem State.reject_pending (s : State) (c : Rejection) : (s.reject c).pending = s.pending := by
  unfold State.reject; split <;> rfl
@[simp] theorem State.reject_received (s : State) (c : Rejection) : (s.reject c).received = s.received := by
  unfold State.reject; split <;> rfl
@[simp] theorem State.reject_offered (s : State) (c : Rejection) : (s.reject c).offered = s.offered := by
  unfold State.reject; split <;> rfl
@[simp] theorem State.reject_edges (s : State) (c : Rejection) : (s.reject c).edges = s.edges := by
  unfold State.reject; split <;> rfl

/-! ### initializeState and clearErr -/

@[simp] theorem State.initializeState_cfg (s : State) : s.initializeState.cfg = s.cfg := rfl
@[simp] theorem State.initializeState_mem (s : State) : s.initializeState.mem = [] := rfl
@[simp] theorem State.initializeState_S (s : State) (x : Byte) : s.initializeState.S x = x := by
  simp [State.S, Memory.unlisted]
@[simp] theorem State.initializeState_a (s : State) : s.initializeState.a = 0#8 := rfl
@[simp] theorem State.initializeState_i (s : State) : s.initializeState.i = 0#8 := rfl
@[simp] theorem State.initializeState_j (s : State) : s.initializeState.j = 0#8 := rfl
@[simp] theorem State.initializeState_k (s : State) : s.initializeState.k = 0#8 := rfl
@[simp] theorem State.initializeState_w (s : State) : s.initializeState.w = 1#8 := rfl
@[simp] theorem State.initializeState_z (s : State) : s.initializeState.z = 0#8 := rfl
@[simp] theorem State.initializeState_err (s : State) : s.initializeState.err = s.err := rfl
@[simp] theorem State.initializeState_errcode (s : State) : s.initializeState.errcode = s.errcode := rfl
@[simp] theorem State.initializeState_working (s : State) : s.initializeState.working = s.working := rfl
@[simp] theorem State.initializeState_buffer (s : State) : s.initializeState.buffer = s.buffer := rfl
@[simp] theorem State.initializeState_pending (s : State) : s.initializeState.pending = s.pending := rfl
@[simp] theorem State.initializeState_received (s : State) : s.initializeState.received = s.received := rfl
@[simp] theorem State.initializeState_offered (s : State) : s.initializeState.offered = s.offered := rfl
@[simp] theorem State.initializeState_edges (s : State) : s.initializeState.edges = s.edges := rfl

@[simp] theorem State.clearErr_cfg (s : State) : s.clearErr.cfg = s.cfg := rfl
@[simp] theorem State.clearErr_mem (s : State) : s.clearErr.mem = s.mem := rfl
@[simp] theorem State.clearErr_S (s : State) (x : Byte) : s.clearErr.S x = s.S x := rfl
@[simp] theorem State.clearErr_a (s : State) : s.clearErr.a = s.a := rfl
@[simp] theorem State.clearErr_i (s : State) : s.clearErr.i = s.i := rfl
@[simp] theorem State.clearErr_j (s : State) : s.clearErr.j = s.j := rfl
@[simp] theorem State.clearErr_k (s : State) : s.clearErr.k = s.k := rfl
@[simp] theorem State.clearErr_w (s : State) : s.clearErr.w = s.w := rfl
@[simp] theorem State.clearErr_z (s : State) : s.clearErr.z = s.z := rfl
@[simp] theorem State.clearErr_err (s : State) : s.clearErr.err = false := rfl
@[simp] theorem State.clearErr_errcode (s : State) : s.clearErr.errcode = 0#3 := rfl
@[simp] theorem State.clearErr_working (s : State) : s.clearErr.working = s.working := rfl
@[simp] theorem State.clearErr_buffer (s : State) : s.clearErr.buffer = s.buffer := rfl
@[simp] theorem State.clearErr_pending (s : State) : s.clearErr.pending = s.pending := rfl
@[simp] theorem State.clearErr_received (s : State) : s.clearErr.received = s.received := rfl
@[simp] theorem State.clearErr_offered (s : State) : s.clearErr.offered = s.offered := rfl
@[simp] theorem State.clearErr_edges (s : State) : s.clearErr.edges = s.edges := rfl

/-! ### The ports -/

@[simp] theorem State.acceptWord_cfg (s : State) : s.acceptWord.cfg = s.cfg := rfl
@[simp] theorem State.acceptWord_mem (s : State) : s.acceptWord.mem = s.mem := rfl
@[simp] theorem State.acceptWord_S (s : State) (x : Byte) : s.acceptWord.S x = s.S x := rfl
@[simp] theorem State.acceptWord_a (s : State) : s.acceptWord.a = s.a := rfl
@[simp] theorem State.acceptWord_w (s : State) : s.acceptWord.w = s.w := rfl
@[simp] theorem State.acceptWord_err (s : State) : s.acceptWord.err = s.err := rfl
@[simp] theorem State.acceptWord_errcode (s : State) : s.acceptWord.errcode = s.errcode := rfl
@[simp] theorem State.acceptWord_working (s : State) : s.acceptWord.working = s.edge.stall := rfl
@[simp] theorem State.acceptWord_buffer (s : State) : s.acceptWord.buffer = s.buffer := rfl
@[simp] theorem State.acceptWord_pending (s : State) : s.acceptWord.pending = s.pending := rfl
@[simp] theorem State.acceptWord_received (s : State) : s.acceptWord.received = s.received := rfl
@[simp] theorem State.acceptWord_offered (s : State) : s.acceptWord.offered = s.offered.tail := rfl
@[simp] theorem State.acceptWord_edges (s : State) : s.acceptWord.edges = s.edges.tail := rfl

@[simp] theorem State.consumeWord_cfg (s : State) : s.consumeWord.cfg = s.cfg := rfl
@[simp] theorem State.consumeWord_mem (s : State) : s.consumeWord.mem = s.mem := rfl
@[simp] theorem State.consumeWord_S (s : State) (x : Byte) : s.consumeWord.S x = s.S x := rfl
@[simp] theorem State.consumeWord_a (s : State) : s.consumeWord.a = s.a := rfl
@[simp] theorem State.consumeWord_w (s : State) : s.consumeWord.w = s.w := rfl
@[simp] theorem State.consumeWord_err (s : State) : s.consumeWord.err = s.err := rfl
@[simp] theorem State.consumeWord_errcode (s : State) : s.consumeWord.errcode = s.errcode := rfl
@[simp] theorem State.consumeWord_working (s : State) : s.consumeWord.working = s.working := rfl
@[simp] theorem State.consumeWord_buffer (s : State) : s.consumeWord.buffer = s.buffer := rfl
@[simp] theorem State.consumeWord_pending (s : State) : s.consumeWord.pending = s.pending := rfl
@[simp] theorem State.consumeWord_received (s : State) : s.consumeWord.received = s.received := rfl
@[simp] theorem State.consumeWord_offered (s : State) : s.consumeWord.offered = s.offered.tail := rfl
@[simp] theorem State.consumeWord_edges (s : State) : s.consumeWord.edges = s.edges.tail := rfl

@[simp] theorem State.resetWith_S (c : Config) (x : Byte) : (State.resetWith c).S x = x := by
  simp [State.S, State.resetWith, Memory.unlisted]

/-- The reset state's memory has the canonical form. -/
theorem State.reset_wf : State.reset.mem.wf = true := rfl

end Sys2Proof.Machine
end

