-- ==== Sys2Proof/Laws/Engine.lean ====
section
/-! SUPPORT. One lemma for each shared operation of the engine that says what it does: what the scrambler keeps, what it does to
the table, and the invariants it preserves. -/

namespace Sys2Proof.Machine

/-! ### Reflexive and transitive relations along a repeated operation -/

/-- A relation that holds along one application holds along n. -/
theorem iterate_related {R : State → State → Prop} (refl : ∀ s, R s s) (trans : ∀ s t u, R s t → R t u → R s u)
    {f : State → State} (h : ∀ s, R s (f s)) (n : Nat) (s : State) : R s (Nat.iterate f n s) := by
  induction n generalizing s with
  | zero => exact refl s
  | succ n ih => exact trans _ _ _ (h s) (ih (f s))

/-- A relation that holds along one application holds along a fold. -/
theorem foldl_related {α : Type} {R : State → State → Prop} (refl : ∀ s, R s s)
    (trans : ∀ s t u, R s t → R t u → R s u) {f : State → α → State} (h : ∀ s v, R s (f s v)) (l : List α) (s : State) :
    R s (l.foldl f s) := by
  induction l generalizing s with
  | nil => exact refl s
  | cons v l ih => exact trans _ _ _ (h s v) (ih (f s v))

/-! ### What no part of the scrambler touches -/

/-- The scrambler's frame: the ports, STATUS, the output and z are as before (R140 to R143). -/
structure State.Scrambled (s t : State) : Prop where
  ports : s.SamePorts t
  status : s.SameStatus t
  pending : t.pending = s.pending
  z : t.z = s.z

theorem State.Scrambled.refl (s : State) : s.Scrambled s := ⟨⟨rfl, rfl, rfl, rfl, rfl, rfl⟩, ⟨rfl, rfl⟩, rfl, rfl⟩

theorem State.SamePorts.trans {s t u : State} (h : s.SamePorts t) (h' : t.SamePorts u) : s.SamePorts u :=
  ⟨h'.cfg.trans h.cfg, h'.working.trans h.working, h'.buffer.trans h.buffer, h'.received.trans h.received, h'.offered.trans h.offered,
    h'.edges.trans h.edges⟩

theorem State.SameStatus.trans {s t u : State} (h : s.SameStatus t) (h' : t.SameStatus u) : s.SameStatus u :=
  ⟨h'.err.trans h.err, h'.errcode.trans h.errcode⟩

theorem State.Scrambled.trans {s t u : State} (h : s.Scrambled t) (h' : t.Scrambled u) : s.Scrambled u :=
  ⟨h.ports.trans h'.ports, h.status.trans h'.status, h'.pending.trans h.pending, h'.z.trans h.z⟩

theorem State.scrambled_update (s : State) : s.Scrambled s.update := ⟨⟨rfl, rfl, rfl, rfl, rfl, rfl⟩, ⟨rfl, rfl⟩, rfl, rfl⟩

theorem whipLength_eq : whipLength = 512 := by unfold whipLength; rfl

theorem State.scrambled_setA (s : State) (v : Byte) : s.Scrambled (s.setA v) := ⟨⟨rfl, rfl, rfl, rfl, rfl, rfl⟩, ⟨rfl, rfl⟩, rfl, rfl⟩

theorem State.scrambled_setW (s : State) (v : Byte) : s.Scrambled (s.setW v) := ⟨⟨rfl, rfl, rfl, rfl, rfl, rfl⟩, ⟨rfl, rfl⟩, rfl, rfl⟩

theorem State.scrambled_swap (s : State) (x y : Byte) : s.Scrambled (s.swap x y) := ⟨⟨rfl, rfl, rfl, rfl, rfl, rfl⟩, ⟨rfl, rfl⟩, rfl, rfl⟩

theorem State.scrambled_whip (s : State) : s.Scrambled s.whip := by
  unfold State.whip
  exact (iterate_related State.Scrambled.refl (fun _ _ _ => State.Scrambled.trans) State.scrambled_update whipLength s).trans
    (State.scrambled_setW _ _)

theorem State.scrambled_crushPair (s : State) (v : Byte) : s.Scrambled (s.crushPair v) := by
  unfold State.crushPair
  split
  · exact s.scrambled_swap _ _
  · exact State.Scrambled.refl s

theorem State.scrambled_crush (s : State) : s.Scrambled s.crush := by
  unfold State.crush
  exact foldl_related State.Scrambled.refl (fun _ _ _ => State.Scrambled.trans) State.scrambled_crushPair crushRange s

theorem State.scrambled_shuffle (s : State) : s.Scrambled s.shuffle := by
  unfold State.shuffle
  exact ((((s.scrambled_whip.trans (State.scrambled_crush _)).trans (State.scrambled_whip _)).trans
    (State.scrambled_crush _)).trans (State.scrambled_whip _)).trans
    (State.scrambled_setA _ _)

theorem State.scrambled_threshold (s : State) : s.Scrambled s.threshold := by
  unfold State.threshold
  split
  · exact s.scrambled_shuffle
  · exact State.Scrambled.refl s

theorem State.scrambled_drain (s : State) : s.Scrambled s.drain := by
  unfold State.drain
  split
  · exact s.scrambled_shuffle
  · exact State.Scrambled.refl s

theorem State.scrambled_absorbNibble (s : State) (v : Nibble) : s.Scrambled (s.absorbNibble v) :=
  (s.scrambled_threshold.trans (State.scrambled_swap _ _ _)).trans (State.scrambled_setA _ _)

/-! ### The registers -/

@[simp] theorem State.shuffle_a (s : State) : s.shuffle.a = 0#8 := by unfold State.shuffle; rfl

/-- update keeps a and w (R140). -/
@[simp] theorem State.update_a (s : State) : s.update.a = s.a := rfl
@[simp] theorem State.update_w (s : State) : s.update.w = s.w := rfl

theorem State.crush_registers (s : State) : s.SameRegisters s.crush := by
  unfold State.crush
  exact foldl_related (R := State.SameRegisters) (fun _ => ⟨rfl, ⟨rfl, rfl, rfl⟩, rfl, rfl⟩)
    (fun _ _ _ h h' => ⟨h'.a.trans h.a,
      ⟨h'.indices.i.trans h.indices.i, h'.indices.j.trans h.indices.j, h'.indices.k.trans h.indices.k⟩,
      h'.w.trans h.w, h'.z.trans h.z⟩)
    (fun s v => by unfold State.crushPair; split <;> exact ⟨rfl, ⟨rfl, rfl, rfl⟩, rfl, rfl⟩) crushRange s

/-- whip advances w by 2 and keeps a (R141). -/
theorem State.whip_w (s : State) : s.whip.w = s.w + 2#8 := by
  have h : (Nat.iterate State.update whipLength s).w = s.w :=
    iterate_related (R := fun s t => t.w = s.w) (fun _ => rfl) (fun _ _ _ h h' => h'.trans h) State.update_w whipLength s
  rw [State.whip, State.setW_w, h]

theorem State.whip_a (s : State) : s.whip.a = s.a := by
  unfold State.whip
  exact iterate_related (R := fun s t => t.a = s.a) (fun _ => rfl) (fun _ _ _ h h' => h'.trans h) State.update_a whipLength s

/-! ### The canonical form of the memory -/

theorem State.wf_update {s : State} (h : s.mem.wf = true) : s.update.mem.wf = true := State.wf_swap (s := _) h _ _

theorem State.wf_whip {s : State} (h : s.mem.wf = true) : s.whip.mem.wf = true := by
  unfold State.whip
  exact iterate_related (R := fun s t => s.mem.wf = true → t.mem.wf = true) (fun _ h => h) (fun _ _ _ f g h => g (f h))
    (fun _ h => State.wf_update h) whipLength s h

theorem State.wf_crush {s : State} (h : s.mem.wf = true) : s.crush.mem.wf = true := by
  unfold State.crush
  exact foldl_related (R := fun s t => s.mem.wf = true → t.mem.wf = true) (fun _ h => h) (fun _ _ _ f g h => g (f h))
    (fun s v h => by unfold State.crushPair; split; exacts [State.wf_swap h _ _, h]) crushRange s h

theorem State.wf_shuffle {s : State} (h : s.mem.wf = true) : s.shuffle.mem.wf = true := by
  unfold State.shuffle
  exact State.wf_whip (State.wf_crush (State.wf_whip (State.wf_crush (State.wf_whip h))))

end Sys2Proof.Machine
end

