-- ==== Sys2Proof/Laws/Congruence.lean ====
section
/-! SUPPORT. What the engine's operations read: two states that agree on the table and the registers an operation reads are taken
to states that agree again, whatever the rest of them holds (10_state R28). -/

namespace Sys2Proof.Machine

/-- Agreement on what the scrambler reads: S, i, j, k and w (R140 to R143). -/
structure State.SameCore (s t : State) : Prop where
  mem : s.mem = t.mem
  i : s.i = t.i
  j : s.j = t.j
  k : s.k = t.k
  w : s.w = t.w

/-- Agreement on the table and all six registers. -/
structure State.SameEngine (s t : State) : Prop where
  core : s.SameCore t
  a : s.a = t.a
  z : s.z = t.z

theorem State.SameCore.S {s t : State} (h : s.SameCore t) (x : Byte) : s.S x = t.S x := by
  rw [State.S_def, State.S_def, h.mem]

theorem State.SameCore.swap {s t : State} (h : s.SameCore t) (x y : Byte) : (s.swap x y).SameCore (t.swap x y) :=
  ⟨by simp only [State.swap, h.mem, h.S], h.i, h.j, h.k, h.w⟩

theorem State.SameCore.setA {s t : State} (h : s.SameCore t) (v v' : Byte) : (s.setA v).SameCore (t.setA v') :=
  ⟨h.mem, h.i, h.j, h.k, h.w⟩

theorem State.SameCore.update {s t : State} (h : s.SameCore t) : s.update.SameCore t.update := by
  have hm := h.mem
  have hi := h.i
  have hj := h.j
  have hk := h.k
  have hw := h.w
  constructor <;> simp [State.update, State.stepIndices, State.swap, State.S, hm, hi, hj, hk, hw]

/-- A congruence for one application is one for n. -/
theorem iterate_congr {R : State → State → Prop} {f : State → State} (h : ∀ s t, R s t → R (f s) (f t)) (n : Nat)
    {s t : State} (hst : R s t) : R (Nat.iterate f n s) (Nat.iterate f n t) := by
  induction n generalizing s t with
  | zero => exact hst
  | succ n ih => exact ih (h s t hst)

theorem State.SameCore.whip {s t : State} (h : s.SameCore t) : s.whip.SameCore t.whip := by
  have hu : (Nat.iterate State.update whipLength s).SameCore (Nat.iterate State.update whipLength t) :=
    iterate_congr (R := State.SameCore) (fun _ _ => State.SameCore.update) whipLength h
  unfold State.whip
  exact ⟨hu.mem, hu.i, hu.j, hu.k, by simp only [State.setW_w, hu.w]⟩

theorem State.SameCore.crushPair {s t : State} (h : s.SameCore t) (v : Byte) :
    (s.crushPair v).SameCore (t.crushPair v) := by
  unfold State.crushPair
  rw [h.S, h.S]
  split
  · exact h.swap _ _
  · exact h

theorem State.SameCore.foldl_crushPair {s t : State} (h : s.SameCore t) (l : List Byte) :
    (l.foldl State.crushPair s).SameCore (l.foldl State.crushPair t) := by
  induction l generalizing s t with
  | nil => exact h
  | cons v l ih => exact ih (h.crushPair v)

theorem State.SameCore.crush {s t : State} (h : s.SameCore t) : s.crush.SameCore t.crush := by
  unfold State.crush
  exact h.foldl_crushPair crushRange

/-- shuffle reads neither a nor z (R143, R147). -/
theorem State.SameCore.shuffle {s t : State} (h : s.SameCore t) : s.shuffle.SameCore t.shuffle := by
  unfold State.shuffle
  exact h.whip.crush.whip.crush.whip.setA _ _

theorem State.SameEngine.shuffle {s t : State} (h : s.SameEngine t) : s.shuffle.SameEngine t.shuffle :=
  ⟨h.core.shuffle, by rw [State.shuffle_a, State.shuffle_a], by rw [s.scrambled_shuffle.z, t.scrambled_shuffle.z, h.z]⟩

theorem State.SameEngine.threshold {s t : State} (h : s.SameEngine t) : s.threshold.SameEngine t.threshold := by
  unfold State.threshold
  rw [h.a]
  split
  · exact h.shuffle
  · exact h

theorem State.SameEngine.drain {s t : State} (h : s.SameEngine t) : s.drain.SameEngine t.drain := by
  unfold State.drain
  rw [h.a]
  split
  · exact h.shuffle
  · exact h

theorem State.SameEngine.swap {s t : State} (h : s.SameEngine t) (x y : Byte) :
    (s.swap x y).SameEngine (t.swap x y) :=
  ⟨h.core.swap x y, h.a, h.z⟩

theorem State.SameEngine.setA {s t : State} (h : s.SameEngine t) (v : Byte) : (s.setA v).SameEngine (t.setA v) :=
  ⟨h.core.setA v v, rfl, h.z⟩

theorem State.SameEngine.absorbNibble {s t : State} (h : s.SameEngine t) (v : Nibble) :
    (s.absorbNibble v).SameEngine (t.absorbNibble v) := by
  have hs := h.threshold
  unfold State.absorbNibble
  simp only [State.swap_a, hs.a]
  exact (hs.swap _ _).setA _

theorem State.SameEngine.absorbStop {s t : State} (h : s.SameEngine t) : s.absorbStop.SameEngine t.absorbStop := by
  have hs := h.threshold
  unfold State.absorbStop
  simp only [hs.a]
  exact hs.setA _

theorem State.SameEngine.output {s t : State} (h : s.SameEngine t) : s.output.SameEngine t.output := by
  refine ⟨⟨h.core.mem, h.core.i, h.core.j, h.core.k, h.core.w⟩, h.a, ?_⟩
  simp only [State.output, State.setZ_z, h.core.S, h.core.i, h.core.j, h.core.k, h.z]

theorem State.SameEngine.update {s t : State} (h : s.SameEngine t) : s.update.SameEngine t.update :=
  ⟨h.core.update, h.a, h.z⟩

theorem State.SameEngine.drip {s t : State} (h : s.SameEngine t) : s.drip.SameEngine t.drip := h.drain.update.output

theorem State.SameEngine.emit {s t : State} (h : s.SameEngine t) (b b' : Byte) : (s.emit b).SameEngine (t.emit b') :=
  ⟨⟨h.core.mem, h.core.i, h.core.j, h.core.k, h.core.w⟩, h.a, h.z⟩

end Sys2Proof.Machine
end

