-- ==== Sys2Proof/Laws/Exec.lean ====
section
/-! SUPPORT. What a command's meaning depends on: two states that agree on the engine's table and registers give the same bytes
and agree again, whatever the ports, STATUS and the output buffer hold. -/

namespace Sys2Proof.Machine

theorem State.SameEngine.refl (s : State) : s.SameEngine s := ⟨⟨rfl, rfl, rfl, rfl, rfl⟩, rfl, rfl⟩

theorem State.SameEngine.symm {s t : State} (h : s.SameEngine t) : t.SameEngine s :=
  ⟨⟨h.core.mem.symm, h.core.i.symm, h.core.j.symm, h.core.k.symm, h.core.w.symm⟩, h.a.symm, h.z.symm⟩

theorem State.SameEngine.trans {s t u : State} (h : s.SameEngine t) (h' : t.SameEngine u) : s.SameEngine u :=
  ⟨⟨h.core.mem.trans h'.core.mem, h.core.i.trans h'.core.i, h.core.j.trans h'.core.j, h.core.k.trans h'.core.k,
    h.core.w.trans h'.core.w⟩, h.a.trans h'.a, h.z.trans h'.z⟩

/-- Two states are equal when engine, ports, STATUS and output are. -/
theorem State.eq_of_same {s t : State} (h : s.SameEngine t) (hp : t.SamePorts s) (hs : t.SameStatus s)
    (ho : s.pending = t.pending) : s = t := by
  ext1
  exacts [hp.cfg, h.core.mem, h.a, h.core.i, h.core.j, h.core.k, h.core.w, h.z, hs.err, hs.errcode, hp.working, hp.buffer, ho,
    hp.received, hp.offered, hp.edges]

theorem State.reject_sameEngine (s : State) (c : Rejection) : s.SameEngine (s.reject c) :=
  ⟨⟨(State.reject_mem s c).symm, (State.reject_i s c).symm, (State.reject_j s c).symm, (State.reject_k s c).symm,
    (State.reject_w s c).symm⟩, (State.reject_a s c).symm, (State.reject_z s c).symm⟩

/-- One drip's byte, and what it leaves of the ports and STATUS (R171). -/
theorem State.emitDrip_frame (s : State) : s.SamePorts s.emitDrip ∧ s.SameStatus s.emitDrip ∧
    s.emitDrip.pending = s.pending ++ [s.drip.z] := by
  have h := s.scrambled_drain
  exact ⟨h.ports.trans ⟨rfl, rfl, rfl, rfl, rfl, rfl⟩, h.status.trans ⟨rfl, rfl⟩,
    by show s.drain.pending ++ _ = _; rw [h.pending]⟩

theorem State.SameEngine.emitDrip {s t : State} (h : s.SameEngine t) : s.emitDrip.SameEngine t.emitDrip ∧
    ∃ b, s.emitDrip.pending = s.pending ++ [b] ∧ t.emitDrip.pending = t.pending ++ [b] :=
  ⟨h.drip.emit _ _, s.drip.z, s.emitDrip_frame.2.2, h.drip.z ▸ t.emitDrip_frame.2.2⟩

theorem State.SameEngine.emitDrips {s t : State} (h : s.SameEngine t) (n : Nat) :
    (Nat.iterate State.emitDrip n s).SameEngine (Nat.iterate State.emitDrip n t) ∧
      ∃ bs, (Nat.iterate State.emitDrip n s).pending = s.pending ++ bs ∧
        (Nat.iterate State.emitDrip n t).pending = t.pending ++ bs := by
  induction n generalizing s t with
  | zero => exact ⟨h, [], by simp, by simp⟩
  | succ n ih =>
    obtain ⟨h1, b, hs, ht⟩ := h.emitDrip
    obtain ⟨h2, bs, hs', ht'⟩ := ih h1
    refine ⟨h2, b :: bs, ?_, ?_⟩
    · rw [Function.iterate_succ_apply, hs', hs, List.append_assoc, List.singleton_append]
    · rw [Function.iterate_succ_apply, ht', ht, List.append_assoc, List.singleton_append]

/-- A command does the same to the engine, and emits the same bytes, from any two states that agree on the engine and, for the
readback commands, on P_READBACK (R28, R192). -/
theorem exec_congr (i : Instr) {s t : State} (h : s.SameEngine t)
    (hr : s.cfg.readback = t.cfg.readback ∨ ((∀ x, i ≠ .readS x) ∧ ∀ r, i ≠ .readReg r)) :
    ∃ s' t' bs, exec i s = .next s' ∧ exec i t = .next t' ∧ s'.SameEngine t' ∧
      s'.pending = s.pending ++ bs ∧ t'.pending = t.pending ++ bs := by
  have quiet : ∀ {s' t' : State}, exec i s = .next s' → exec i t = .next t' → s'.SameEngine t' → s'.pending = s.pending →
      t'.pending = t.pending → ∃ s' t' bs, exec i s = .next s' ∧ exec i t = .next t' ∧ s'.SameEngine t' ∧
        s'.pending = s.pending ++ bs ∧ t'.pending = t.pending ++ bs :=
    fun h1 h2 h3 h4 h5 => ⟨_, _, [], h1, h2, h3, by simp [h4], by simp [h5]⟩
  have rejected : ∀ c : Rejection, (s.reject c).SameEngine (t.reject c) := fun c =>
    ((s.reject_sameEngine c).symm.trans h).trans (t.reject_sameEngine c)
  cases i with
  | init => exact quiet rfl rfl ⟨⟨rfl, rfl, rfl, rfl, rfl⟩, rfl, rfl⟩ rfl rfl
  | swap x y => exact quiet rfl rfl (h.swap x y) rfl rfl
  | absorbNibble v =>
    exact quiet rfl rfl (h.absorbNibble v) (s.scrambled_absorbNibble v).pending (t.scrambled_absorbNibble v).pending
  | absorbByte b =>
    exact quiet rfl rfl ((h.absorbNibble _).absorbNibble _)
      ((s.scrambled_absorbNibble _).trans (State.scrambled_absorbNibble _ _)).pending
      ((t.scrambled_absorbNibble _).trans (State.scrambled_absorbNibble _ _)).pending
  | absorbStop =>
    exact quiet rfl rfl h.absorbStop (s.scrambled_threshold.trans (State.scrambled_setA _ _)).pending
      (t.scrambled_threshold.trans (State.scrambled_setA _ _)).pending
  | update => exact quiet rfl rfl h.update rfl rfl
  | whip =>
    exact quiet rfl rfl ⟨h.core.whip, by rw [s.whip_a, t.whip_a, h.a], by rw [s.scrambled_whip.z, t.scrambled_whip.z, h.z]⟩
      s.scrambled_whip.pending t.scrambled_whip.pending
  | crush =>
    exact quiet rfl rfl ⟨h.core.crush, by rw [s.crush_registers.a, t.crush_registers.a, h.a],
      by rw [s.scrambled_crush.z, t.scrambled_crush.z, h.z]⟩ s.scrambled_crush.pending t.scrambled_crush.pending
  | shuffle => exact quiet rfl rfl h.shuffle s.scrambled_shuffle.pending t.scrambled_shuffle.pending
  | output => exact ⟨_, _, [s.output.z], rfl, rfl, h.output.emit _ _, rfl, by rw [h.output.z]; rfl⟩
  | drip =>
    obtain ⟨hd, b, hs, ht⟩ := h.emitDrip
    exact ⟨_, _, [b], rfl, rfl, hd, hs, ht⟩
  | squeeze n =>
    obtain ⟨hd, bs, hs, ht⟩ := h.drain.emitDrips (squeezeCount n)
    exact ⟨_, _, bs, rfl, rfl, hd, s.scrambled_drain.pending ▸ hs, t.scrambled_drain.pending ▸ ht⟩
  | readS x =>
    have hr : s.cfg.readback = t.cfg.readback := hr.resolve_right fun hn => hn.1 x rfl
    cases hb : t.cfg.readback with
    | true =>
      exact ⟨s.emit (s.S x), t.emit (t.S x), [s.S x], by simp [exec, execReadS, hr, hb], by simp [exec, execReadS, hb],
        h.emit _ _, rfl, by rw [h.core.S]; rfl⟩
    | false =>
      exact quiet (s' := s.reject .readbackDisabled) (t' := t.reject .readbackDisabled) (by simp [exec, execReadS, hr, hb])
        (by simp [exec, execReadS, hb]) (rejected _) (by simp) (by simp)
  | readReg r =>
    have hr : s.cfg.readback = t.cfg.readback := hr.resolve_right fun hn => hn.2 r rfl
    cases hb : t.cfg.readback with
    | true =>
      cases hn : regOfNumber r with
      | some n =>
        have he : s.reg n = t.reg n := by
          cases n
          exacts [h.a, h.core.i, h.core.j, h.core.k, h.core.w, h.z]
        exact ⟨s.emit (s.reg n), t.emit (t.reg n), [s.reg n], by simp [exec, execReadReg, hr, hb, hn],
          by simp [exec, execReadReg, hb, hn], h.emit _ _, rfl, by rw [he]; rfl⟩
      | none =>
        exact quiet (s' := s.reject .badRegister) (t' := t.reject .badRegister) (by simp [exec, execReadReg, hr, hb, hn])
          (by simp [exec, execReadReg, hb, hn]) (rejected _) (by simp) (by simp)
    | false =>
      exact quiet (s' := s.reject .readbackDisabled) (t' := t.reject .readbackDisabled)
        (by simp [exec, execReadReg, hr, hb]) (by simp [exec, execReadReg, hb]) (rejected _) (by simp) (by simp)

end Sys2Proof.Machine
end

