-- ==== Sys2Proof/Laws/PerInstr.lean ====
section
/-! SUPPORT. Statements for all commands, one lemma per constructor (LAWS.json). `EncodedAsTabled`: the encoder's word of a
command matches the command's row of the opcode map (30_encoding R72, R74), and that row's operands, read back from the word
(R73), are the command's. -/

namespace Sys2Proof.Laws

/-! ### The byte fields of a packed word (R71) -/

theorem opc_pack (o b a : Byte) : Word.opc (pack o b a) = o := by
  unfold Word.opc pack; ext n hn; interval_cases n <;> simp

theorem fieldB_pack (o b a : Byte) : Word.fieldB (pack o b a) = b := by
  unfold Word.fieldB pack; ext n hn; interval_cases n <;> simp

theorem fieldA_pack (o b a : Byte) : Word.fieldA (pack o b a) = a := by
  unfold Word.fieldA pack; ext n hn; interval_cases n <;> simp

theorem fieldL_pack (o : Byte) (n : BitVec 16) : Word.fieldL (pack o (n.extractLsb' 8 8) (n.extractLsb' 0 8)) = n := by
  unfold Word.fieldL pack; ext m hm; interval_cases m <;> simp

theorem fieldV_pack (o b : Byte) (v : Nibble) : Word.fieldV (pack o b (v.setWidth 8)) = v := by
  unfold Word.fieldV pack; ext n hn; interval_cases n <;> simp

/-- The reserved byte of a packed word is 0. -/
theorem reserved_pack (o b a : Byte) : pack o b a &&& 0xFFFF0000#32 = o.setWidth 32 <<< 24 := by
  unfold pack; ext n hn; interval_cases n <;> simp

namespace EncodedAsTabled

/-- The word of a command matches a row of R74, whose operands are the command's. -/
def Statement (i : Instr) : Prop :=
  ∃ row ∈ opcodeRows, encode i &&& row.mask = row.matchWord ∧ row.assemble (encode i) = i

theorem init : Statement .init :=
  ⟨⟨0x01#8, .FZ, fun _ => .init⟩, by simp [opcodeRows], by decide, rfl⟩

theorem swap (x y : Byte) : Statement (.swap x y) :=
  ⟨⟨0x02#8, .FXY, fun w => .swap (Word.fieldA w) (Word.fieldB w)⟩, by simp [opcodeRows],
    reserved_pack 0x02#8 y x, by simp only [encode, fieldA_pack, fieldB_pack]⟩

theorem absorbNibble (v : Nibble) : Statement (.absorbNibble v) := by
  refine ⟨⟨0x10#8, .FN, fun w => .absorbNibble (Word.fieldV w)⟩, by simp [opcodeRows], ?_,
    by simp only [encode, fieldV_pack]⟩
  revert v
  decide

theorem absorbByte (b : Byte) : Statement (.absorbByte b) := by
  refine ⟨⟨0x11#8, .FB, fun w => .absorbByte (Word.fieldA w)⟩, by simp [opcodeRows], ?_,
    by simp only [encode, fieldA_pack]⟩
  revert b
  decide +kernel

theorem absorbStop : Statement .absorbStop :=
  ⟨⟨0x12#8, .FZ, fun _ => .absorbStop⟩, by simp [opcodeRows], by decide, rfl⟩

theorem update : Statement .update :=
  ⟨⟨0x20#8, .FZ, fun _ => .update⟩, by simp [opcodeRows], by decide, rfl⟩

theorem whip : Statement .whip :=
  ⟨⟨0x21#8, .FZ, fun _ => .whip⟩, by simp [opcodeRows], by decide, rfl⟩

theorem crush : Statement .crush :=
  ⟨⟨0x22#8, .FZ, fun _ => .crush⟩, by simp [opcodeRows], by decide, rfl⟩

theorem shuffle : Statement .shuffle :=
  ⟨⟨0x23#8, .FZ, fun _ => .shuffle⟩, by simp [opcodeRows], by decide, rfl⟩

theorem output : Statement .output :=
  ⟨⟨0x30#8, .FZ, fun _ => .output⟩, by simp [opcodeRows], by decide, rfl⟩

theorem drip : Statement .drip :=
  ⟨⟨0x31#8, .FZ, fun _ => .drip⟩, by simp [opcodeRows], by decide, rfl⟩

theorem squeeze (n : BitVec 16) : Statement (.squeeze n) :=
  ⟨⟨0x32#8, .FL, fun w => .squeeze (Word.fieldL w)⟩, by simp [opcodeRows],
    reserved_pack 0x32#8 (n.extractLsb' 8 8) (n.extractLsb' 0 8), by simp only [encode, fieldL_pack]⟩

theorem readS (x : Byte) : Statement (.readS x) := by
  refine ⟨⟨0x40#8, .FB, fun w => .readS (Word.fieldA w)⟩, by simp [opcodeRows], ?_,
    by simp only [encode, fieldA_pack]⟩
  revert x
  decide +kernel

theorem readReg (r : Byte) : Statement (.readReg r) := by
  refine ⟨⟨0x41#8, .FR, fun w => .readReg (Word.fieldA w)⟩, by simp [opcodeRows], ?_,
    by simp only [encode, fieldA_pack]⟩
  revert r
  decide +kernel

end EncodedAsTabled

end Sys2Proof.Laws
end

