-- ==== Sys2Proof/Laws/Step.lean ====
section
/-! SUPPORT. Everything a step can do, said once. -/

namespace Sys2Proof.Machine

/-- Which event an edge brings: the five cases of the ports. -/
theorem portEvent_cases (s : State) :
    (s.edge.rst = true ∧ portEvent s = .reset) ∨
    (s.edge.rst = false ∧ s.busy = true ∧ portEvent s = .busy) ∨
    (s.edge.rst = false ∧ s.busy = false ∧ (s.edge.cmdValid = false ∨ s.offered = []) ∧ portEvent s = .idle) ∨
    (∃ word words, s.edge.rst = false ∧ s.busy = false ∧ s.edge.cmdValid = true ∧ s.offered = word :: words ∧
      portEvent s = .command word) := by
  unfold portEvent
  cases hr : s.edge.rst
  · cases hb : s.busy
    · cases hv : s.edge.cmdValid
      · simp
      · cases ho : s.offered with
        | nil => simp
        | cons word words => simp
    · simp
  · simp

/-- Everything a step can do (R75, R82, R260): a reset, an edge of a running command, nothing, a rejection, or one command. -/
theorem step_cases {s t : State} (h : step s = .next t) :
    (s.edge.rst = true ∧ t = s.resetEdge) ∨
    (s.edge.rst = false ∧ s.busy = true ∧ t = s.busyEdge) ∨
    (s.edge.rst = false ∧ s.busy = false ∧ (s.edge.cmdValid = false ∨ s.offered = []) ∧ t = s.passEdge) ∨
    (∃ word words, s.edge.rst = false ∧ s.busy = false ∧ s.edge.cmdValid = true ∧ s.offered = word :: words ∧
      ((∃ cause, decode s.cfg.readback word = .error cause ∧ t = s.consumeWord.reject cause) ∨
       (∃ i, decode s.cfg.readback word = .ok i ∧ exec i s.acceptWord = .next t))) := by
  rcases portEvent_cases s with ⟨hr, he⟩ | ⟨hr, hb, he⟩ | ⟨hr, hb, hv, he⟩ | ⟨word, words, hr, hb, hv, ho, he⟩
  · refine .inl ⟨hr, ?_⟩
    simp only [step, he, Host.Outcome.next.injEq] at h
    exact h.symm
  · refine .inr (.inl ⟨hr, hb, ?_⟩)
    simp only [step, he, Host.Outcome.next.injEq] at h
    exact h.symm
  · refine .inr (.inr (.inl ⟨hr, hb, hv, ?_⟩))
    simp only [step, he, Host.Outcome.next.injEq] at h
    exact h.symm
  · refine .inr (.inr (.inr ⟨word, words, hr, hb, hv, ho, ?_⟩))
    simp only [step, he] at h
    cases hd : decode s.cfg.readback word with
    | error cause =>
      simp only [hd, Host.Outcome.next.injEq] at h
      exact .inl ⟨cause, rfl, h.symm⟩
    | ok i =>
      simp only [hd] at h
      exact .inr ⟨i, rfl, h⟩

/-- Everything the host's taking does (R84): the oldest byte, if there is one, goes to it. -/
theorem takeByte_cases (s : State) :
    (s.buffer = [] ∧ s.takeByte = s) ∨
    (∃ b bs, s.buffer = b :: bs ∧ s.takeByte = { s with received := s.received ++ [b], buffer := bs }) := by
  unfold State.takeByte
  cases h : s.buffer with
  | nil => exact .inl ⟨rfl, rfl⟩
  | cons b bs => exact .inr ⟨b, bs, rfl, rfl⟩

/-- Everything the engine's emitting does (R84): the next byte, if there is one and room for it, goes into the buffer. -/
theorem emitByte_cases (s : State) :
    ((s.pending = [] ∨ s.cfg.outDepth ≤ s.buffer.length) ∧ s.emitByte = s) ∨
    (∃ b bs, s.pending = b :: bs ∧ s.buffer.length < s.cfg.outDepth ∧
      s.emitByte = { s with buffer := s.buffer ++ [b], pending := bs }) := by
  unfold State.emitByte
  cases h : s.pending with
  | nil => exact .inl ⟨.inl rfl, rfl⟩
  | cons b bs =>
    by_cases hl : s.buffer.length < s.cfg.outDepth
    · exact .inr ⟨b, bs, rfl, hl, by simp [hl]⟩
    · exact .inl ⟨.inr (by omega), by simp [hl]⟩

/-- What no part of an edge of a running command touches: the table, the registers, STATUS errors, the build parameters, the
words still to be presented; and no byte is lost or made up (R84). -/
structure State.Flowed (s t : State) : Prop where
  mem : t.mem = s.mem
  registers : s.SameRegisters t
  status : s.SameStatus t
  cfg : t.cfg = s.cfg
  offered : t.offered = s.offered
  bytes : t.received ++ (t.buffer ++ t.pending) = s.received ++ (s.buffer ++ s.pending)

theorem flowed_takeByte (s : State) : s.Flowed s.takeByte := by
  rcases takeByte_cases s with ⟨-, h⟩ | ⟨b, bs, hb, h⟩ <;> rw [h] <;>
    exact ⟨rfl, ⟨rfl, ⟨rfl, rfl, rfl⟩, rfl, rfl⟩, ⟨rfl, rfl⟩, rfl, rfl, by simp [*]⟩

theorem flowed_emitByte (s : State) : s.Flowed s.emitByte := by
  rcases emitByte_cases s with ⟨-, h⟩ | ⟨b, bs, hp, -, h⟩ <;> rw [h] <;>
    exact ⟨rfl, ⟨rfl, ⟨rfl, rfl, rfl⟩, rfl, rfl⟩, ⟨rfl, rfl⟩, rfl, rfl, by simp [*]⟩

theorem State.Flowed.trans {s t u : State} (h : s.Flowed t) (h' : t.Flowed u) : s.Flowed u :=
  ⟨h'.mem.trans h.mem,
    ⟨h'.registers.a.trans h.registers.a,
      ⟨h'.registers.indices.i.trans h.registers.indices.i, h'.registers.indices.j.trans h.registers.indices.j,
        h'.registers.indices.k.trans h.registers.indices.k⟩,
      h'.registers.w.trans h.registers.w, h'.registers.z.trans h.registers.z⟩,
    h.status.trans h'.status, h'.cfg.trans h.cfg, h'.offered.trans h.offered, h'.bytes.trans h.bytes⟩

/-- An edge of a running command moves bytes and nothing else of the engine (R33, R84). -/
theorem flowed_busyEdge (s : State) : s.Flowed s.busyEdge := by
  have h0 : s.Flowed s.passEdge := ⟨rfl, ⟨rfl, ⟨rfl, rfl, rfl⟩, rfl, rfl⟩, ⟨rfl, rfl⟩, rfl, rfl, rfl⟩
  have hw : ∀ t : State, t.Flowed { t with working := false } :=
    fun _ => ⟨rfl, ⟨rfl, ⟨rfl, rfl, rfl⟩, rfl, rfl⟩, ⟨rfl, rfl⟩, rfl, rfl, rfl⟩
  unfold State.busyEdge
  dsimp only
  split <;> split
  · exact h0.trans (flowed_takeByte _)
  · exact h0
  · exact h0.trans ((flowed_takeByte _).trans ((flowed_emitByte _).trans (hw _)))
  · exact h0.trans ((flowed_emitByte _).trans (hw _))

/-- With no edge listed, an edge of a running command takes a byte, emits a byte and ends the work (`Edge.plain`). -/
theorem busyEdge_plain {s : State} (h : s.edges = []) : s.busyEdge = { s.takeByte.emitByte with working := false } := by
  have hp : s.passEdge = s := by unfold State.passEdge; ext1 <;> simp [h]
  simp [State.busyEdge, hp, State.edge, h, Edge.plain]

/-- With no edge listed, a running command's next step is an edge of it. -/
theorem step_busy_plain {s : State} (he : s.edges = []) (hb : s.busy = true) : step s = .next s.busyEdge := by
  simp [step, portEvent, State.edge, he, Edge.plain, hb]

end Sys2Proof.Machine
end

