-- ==== Sys2Proof/Laws/Work.lean ====
section
/-! SUPPORT. A counted operation ends in the state of the operation it counts, and what it adds to the counts (42_scrambler R149). -/

namespace Sys2Proof.Machine

theorem Work.ext {p q : Work} (hu : p.updates = q.updates) (hc : p.comparisons = q.comparisons) (hs : p.swaps = q.swaps)
    (hb : p.bytes = q.bytes) : p = q := by
  cases p
  cases q
  cases hu
  cases hc
  cases hs
  cases hb
  rfl

@[simp] theorem Work.plus_updates (p q : Work) : (p.plus q).updates = p.updates + q.updates := rfl
@[simp] theorem Work.plus_comparisons (p q : Work) : (p.plus q).comparisons = p.comparisons + q.comparisons := rfl
@[simp] theorem Work.plus_swaps (p q : Work) : (p.plus q).swaps = p.swaps + q.swaps := rfl
@[simp] theorem Work.plus_bytes (p q : Work) : (p.plus q).bytes = p.bytes + q.bytes := rfl

theorem Work.plus_assoc (p q r : Work) : (p.plus q).plus r = p.plus (q.plus r) :=
  Work.ext (Nat.add_assoc _ _ _) (Nat.add_assoc _ _ _) (Nat.add_assoc _ _ _) (Nat.add_assoc _ _ _)

@[simp] theorem Counted.apply_state (f : State → State) (c : Counted) : (c.apply f).state = f c.state := rfl
@[simp] theorem Counted.apply_work (f : State → State) (c : Counted) : (c.apply f).work = c.work := rfl
@[simp] theorem Counted.count_state (w : Work) (c : Counted) : (c.count w).state = c.state := rfl
@[simp] theorem Counted.count_work (w : Work) (c : Counted) : (c.count w).work = c.work.plus w := rfl
@[simp] theorem Counted.swap_state (x y : Byte) (c : Counted) : (c.swap x y).state = c.state.swap x y := rfl
@[simp] theorem Counted.swap_work (x y : Byte) (c : Counted) : (c.swap x y).work = c.work.plus ⟨0, 0, 1, 0⟩ := rfl
@[simp] theorem Counted.emit_state (b : Byte) (c : Counted) : (c.emit b).state = c.state.emit b := rfl
@[simp] theorem Counted.emit_work (b : Byte) (c : Counted) : (c.emit b).work = c.work.plus ⟨0, 0, 0, 1⟩ := rfl

/-- An update is one update and one swap. -/
@[simp] theorem Counted.update_state (c : Counted) : c.update.state = c.state.update := rfl
@[simp] theorem Counted.update_work (c : Counted) : c.update.work = c.work.plus ⟨1, 0, 1, 0⟩ := rfl

/-- n updates are n of each. -/
theorem Counted.updates (n : Nat) (c : Counted) :
    (Nat.iterate Counted.update n c).state = Nat.iterate State.update n c.state ∧
      (Nat.iterate Counted.update n c).work = c.work.plus ⟨n, 0, n, 0⟩ := by
  induction n generalizing c with
  | zero => exact ⟨rfl, rfl⟩
  | succ n ih =>
    refine ⟨(ih c.update).1, ?_⟩
    rw [Function.iterate_succ_apply, (ih c.update).2, Counted.update_work, Work.plus_assoc]
    exact congrArg c.work.plus (Work.ext (Nat.add_comm 1 n) rfl (Nat.add_comm 1 n) rfl)

/-- A whip is 512 of each. -/
theorem Counted.whip_state (c : Counted) : c.whip.state = c.state.whip := by
  unfold Counted.whip State.whip
  rw [Counted.apply_state, (Counted.updates whipLength c).1]

theorem Counted.whip_work (c : Counted) : c.whip.work = c.work.plus ⟨512, 0, 512, 0⟩ := by
  unfold Counted.whip
  rw [Counted.apply_work, (Counted.updates whipLength c).2, whipLength_eq]

theorem Counted.crushPair_state (c : Counted) (v : Byte) : (c.crushPair v).state = c.state.crushPair v := by
  unfold Counted.crushPair State.crushPair
  by_cases h : c.state.S (255#8 - v) < c.state.S v <;> simp [h]

/-- A pair of crush is one comparison, and one swap exactly where it is out of order. -/
theorem Counted.crushPair_work (c : Counted) (v : Byte) :
    (c.crushPair v).work = c.work.plus ⟨0, 1, if c.state.S (255#8 - v) < c.state.S v then 1 else 0, 0⟩ := by
  unfold Counted.crushPair
  by_cases h : c.state.S (255#8 - v) < c.state.S v
  · simp [h, Work.plus]
  · simp [h]

/-- Pairs of crush: as many comparisons, and at most as many swaps. -/
theorem Counted.crushPairs (l : List Byte) (c : Counted) :
    (l.foldl Counted.crushPair c).state = l.foldl State.crushPair c.state ∧
      ∃ n ≤ l.length, (l.foldl Counted.crushPair c).work = c.work.plus ⟨0, l.length, n, 0⟩ := by
  induction l generalizing c with
  | nil => exact ⟨rfl, 0, le_refl _, rfl⟩
  | cons v l ih =>
    obtain ⟨hs, n, hn, hw⟩ := ih (c.crushPair v)
    refine ⟨by rw [List.foldl_cons, hs, Counted.crushPair_state]; rfl,
      (if c.state.S (255#8 - v) < c.state.S v then 1 else 0) + n, ?_, ?_⟩
    · rw [List.length_cons]
      split <;> omega
    · rw [List.foldl_cons, hw, Counted.crushPair_work, Work.plus_assoc]
      exact congrArg c.work.plus (Work.ext rfl (Nat.add_comm 1 _) rfl rfl)

/-- A crush is 128 comparisons and at most 128 swaps. -/
theorem Counted.crush_state (c : Counted) : c.crush.state = c.state.crush := by
  unfold Counted.crush State.crush
  exact (Counted.crushPairs crushRange c).1

theorem crushRange_length : crushRange.length = 128 := by unfold crushRange; rfl

theorem Counted.crush_work (c : Counted) : ∃ n ≤ 128, c.crush.work = c.work.plus ⟨0, 128, n, 0⟩ := by
  have h := (Counted.crushPairs crushRange c).2
  rw [crushRange_length] at h
  unfold Counted.crush
  exact h

/-- A shuffle is 1536 updates, 256 comparisons and 1536 to 1792 swaps. -/
theorem Counted.shuffle_state (c : Counted) : c.shuffle.state = c.state.shuffle := by
  unfold Counted.shuffle State.shuffle
  simp only [Counted.apply_state, Counted.whip_state, Counted.crush_state]

theorem Counted.shuffle_work (c : Counted) :
    ∃ n, 1536 ≤ n ∧ n ≤ 1792 ∧ c.shuffle.work = c.work.plus ⟨1536, 256, n, 0⟩ := by
  obtain ⟨p, hp, h1⟩ := c.whip.crush_work
  obtain ⟨q, hq, h2⟩ := c.whip.crush.whip.crush_work
  refine ⟨1536 + p + q, by omega, by omega, ?_⟩
  unfold Counted.shuffle
  rw [Counted.apply_work, Counted.whip_work, h2, Counted.whip_work, h1, Counted.whip_work]
  apply Work.ext <;> simp
  omega

end Sys2Proof.Machine
end

