-- ==== Sys2Proof/Tests/Slice0.lean ====
section
/-! SUPPORT. The model's own tests: expected values are the spec's (30_encoding's tables, 95_test_vectors.md), never the model's
answers; and one named witness for the hypotheses of each statement that has some. -/

namespace Sys2Proof.Tests

open Sys2Proof.Machine

/-! ### Helpers -/

/-- One command word presented to a state: the state one step later. -/
def after (s : State) (w : Nat) : Option State :=
  match step (s.withFetchWord 32 w) with
  | .next t => some t
  | .fault _ => none
  | .refused _ => none

/-- The state one edge later. -/
def edgeLater (s : State) : Option State :=
  match step s with
  | .next t => some t
  | .fault _ => none
  | .refused _ => none

/-- An engine built without readback. -/
def noReadback : State := State.resetWith { readback := false, outDepth := 1 }

/-- A running command: one byte in the output buffer, one to be emitted; a word waits. -/
def running : State := { State.reset with buffer := [0x04#8], pending := [0x14#8], offered := [0x31000000#32] }

/-- The edges that differ from `Edge.plain` in one level. -/
def resetting : Edge := { Edge.plain with rst := true }
def notOffering : Edge := { Edge.plain with cmdValid := false }
def hostNotReady : Edge := { Edge.plain with outReady := false }
def stalling : Edge := { Edge.plain with stall := true }

/-! ### Well-formedness: READ_REG's number is the one operand a field can hold that no register has (R191) -/

theorem test_wf_readReg_5 : (Instr.readReg 5#8).wf = true := by decide
theorem test_wf_refuses_readReg_6 : (Instr.readReg 6#8).wf = false := by decide
theorem test_wf_refuses_readReg_255 : (Instr.readReg 255#8).wf = false := by decide

/-! ### Decoding: words written out from R71, R72 and R74, and the rejected words of 95_test_vectors 2.5 and 2.6 -/

theorem test_decode_init : decode true 0b00000001000000000000000000000000#32 = .ok .init := by decide
/-- TBL-2: x = word[7:0] = 0, y = word[15:8] = 255. -/
theorem test_decode_swap : decode true 0b00000010000000001111111100000000#32 = .ok (.swap 0#8 255#8) := by decide
theorem test_decode_absorbNibble : decode true 0b00010000000000000000000000000011#32 = .ok (.absorbNibble 3#4) := by decide
theorem test_decode_absorbByte : decode true 0b00010001000000000000000001000001#32 = .ok (.absorbByte 0x41#8) := by decide
theorem test_decode_absorbStop : decode true 0b00010010000000000000000000000000#32 = .ok .absorbStop := by decide
theorem test_decode_update : decode true 0b00100000000000000000000000000000#32 = .ok .update := by decide
theorem test_decode_whip : decode true 0b00100001000000000000000000000000#32 = .ok .whip := by decide
theorem test_decode_crush : decode true 0b00100010000000000000000000000000#32 = .ok .crush := by decide
theorem test_decode_shuffle : decode true 0b00100011000000000000000000000000#32 = .ok .shuffle := by decide
theorem test_decode_output : decode true 0b00110000000000000000000000000000#32 = .ok .output := by decide
theorem test_decode_drip : decode true 0b00110001000000000000000000000000#32 = .ok .drip := by decide
/-- OUT-7c: n = 300. -/
theorem test_decode_squeeze : decode true 0b00110010000000000000000100101100#32 = .ok (.squeeze 300#16) := by decide
theorem test_decode_readS : decode true 0b01000000000000000000000010000001#32 = .ok (.readS 0x81#8) := by decide
theorem test_decode_readReg : decode true 0b01000001000000000000000000000101#32 = .ok (.readReg 5#8) := by decide

/-- REJ-1 to REJ-3. -/
theorem test_decode_bad_opcode : decode true 0x00000000#32 = .error .badOpcode ∧
    decode true 0x03000000#32 = .error .badOpcode ∧ decode true 0xFF123456#32 = .error .badOpcode := by decide
/-- REJ-4 to REJ-13. -/
theorem test_decode_reserved : decode true 0x01000001#32 = .error .reservedNonzero ∧
    decode true 0x10000010#32 = .error .reservedNonzero ∧ decode true 0x11000100#32 = .error .reservedNonzero ∧
    decode true 0x12000001#32 = .error .reservedNonzero ∧ decode true 0x02010000#32 = .error .reservedNonzero ∧
    decode true 0x2300FF00#32 = .error .reservedNonzero ∧ decode true 0x31800000#32 = .error .reservedNonzero ∧
    decode true 0x32010000#32 = .error .reservedNonzero ∧ decode true 0x40010000#32 = .error .reservedNonzero ∧
    decode true 0x41000106#32 = .error .reservedNonzero := by decide
/-- REJ-14; RB-4, RB-5, RB-7, RB-8. -/
theorem test_decode_readback : decode true 0x41000006#32 = .error .badRegister ∧
    decode false 0x40000000#32 = .error .readbackDisabled ∧ decode false 0x41000000#32 = .error .readbackDisabled ∧
    decode false 0x41000106#32 = .error .readbackDisabled ∧ decode false 0x40000100#32 = .error .readbackDisabled := by decide

/-! ### One step of each command (95_test_vectors 2) -/

/-- TBL-1's end: INIT clears ERR, whatever was there. -/
theorem test_init : (after { State.reset with mem := [(0, 1#8), (1, 0#8)], a := 5#8, w := 7#8, err := true, errcode := 1#3 }
    0x01000000) = some State.reset := by decide
/-- TBL-2. -/
theorem test_swap : (after State.reset 0x0200FF00).map State.mem = some [(0, 0xFF#8), (255, 0x00#8)] := by decide
/-- TBL-3. -/
theorem test_swap_same : (after State.reset 0x02000505).map State.mem = some [] := by decide
/-- ABS-1. -/
theorem test_absorbNibble : (after State.reset 0x10000003).map (fun t => (t.mem, t.a)) =
    some ([(0, 0x83#8), (131, 0x00#8)], 1#8) := by decide
/-- ABS-2. -/
theorem test_absorbNibble_15 : (after State.reset 0x1000000F).map State.mem = some [(0, 0x8F#8), (143, 0x00#8)] := by decide
/-- ABS-3: the low nibble first. -/
theorem test_absorbByte : (after State.reset 0x11000041).map (fun t => (t.mem, t.a)) =
    some ([(0, 0x81#8), (1, 0x84#8), (129, 0x00#8), (132, 0x01#8)], 2#8) := by decide
/-- ABS-4: both nibbles 0. -/
theorem test_absorbByte_zero : (after State.reset 0x11000000).map State.mem =
    some [(0, 0x80#8), (1, 0x00#8), (128, 0x01#8)] := by decide
/-- ABS-5. -/
theorem test_absorbStop : (after State.reset 0x12000000).map (fun t => (t.mem, t.a)) = some ([], 1#8) := by decide
/-- ABS-6's last stop: the test is made at entry, so a = 127 gives a = 128 and no shuffle. -/
theorem test_absorbStop_at_127 : (after { State.reset with a := 127#8 } 0x12000000).map (fun t => (t.mem, t.a, t.w)) =
    some ([], 128#8, 1#8) := by decide
/-- SCR-1. -/
theorem test_update : (after State.reset 0x20000000).map (fun t => (t.i, t.j, t.k, t.mem)) =
    some (1#8, 1#8, 2#8, []) := by decide
/-- SCR-2's second UPDATE. -/
theorem test_update_second : (after { State.reset with i := 1#8, j := 1#8, k := 2#8 } 0x20000000).map
    (fun t => (t.i, t.j, t.k, t.mem)) = some (2#8, 5#8, 9#8, [(2, 0x05#8), (5, 0x02#8)]) := by decide
/-- SCR-4's stride and a. The kernel needs minutes for the 512 updates, so the table is left to the statements. -/
theorem test_whip (t : State) (h : after State.reset 0x21000000 = some t) : t.w = 3#8 ∧ t.a = 0#8 := by
  have h' : (after State.reset 0x21000000) = some State.reset.whip := rfl
  rw [h', Option.some.injEq] at h
  subst h
  exact ⟨State.whip_w _, State.whip_a _⟩
/-- SCR-7: the comparison is unsigned. -/
theorem test_crush_unsigned : (after { State.reset with mem := [(0, 0x80#8), (1, 0xFF#8), (128, 0x00#8), (255, 0x01#8)] }
    0x22000000).map State.mem =
      some [(0, 0x01#8), (1, 0xFE#8), (127, 0x00#8), (128, 0x7F#8), (254, 0xFF#8), (255, 0x80#8)] := by decide +kernel
/-- SCR-6. -/
theorem test_crush : (after { State.reset with mem := [(0, 0xFF#8), (255, 0x00#8)] } 0x22000000).map State.mem =
    some [] := by decide +kernel
/-- SCR-9: SHUFFLE clears a. -/
theorem test_shuffle (t : State) (h : after { State.reset with a := 5#8 } 0x23000000 = some t) : t.a = 0#8 := by
  have h' : (after { State.reset with a := 5#8 } 0x23000000) = some (State.shuffle { State.reset with a := 5#8 }) := rfl
  rw [h', Option.some.injEq] at h
  subst h
  exact State.shuffle_a _
/-- OUT-3's OUTPUT, after one UPDATE. -/
theorem test_output : (after { State.reset with i := 1#8, j := 1#8, k := 2#8 } 0x30000000).map (fun t => (t.z, t.pending)) =
    some (0x04#8, [0x04#8]) := by decide
/-- OUT-9: OUTPUT does not test a. -/
theorem test_output_ignores_a : (after { State.reset with a := 1#8 } 0x30000000).map (fun t => (t.a, t.w, t.pending)) =
    some (1#8, 1#8, [0x00#8]) := by decide
/-- OUT-2's first DRIP. -/
theorem test_drip : (after State.reset 0x31000000).map (fun t => (t.i, t.j, t.k, t.pending)) =
    some (1#8, 1#8, 2#8, [0x04#8]) := by decide
/-- OUT-2's second DRIP. -/
theorem test_drip_second : (after { State.reset with i := 1#8, j := 1#8, k := 2#8, z := 4#8 } 0x31000000).map
    (fun t => (t.z, t.pending)) = some (0x14#8, [0x14#8]) := by decide
/-- OUT-6. -/
theorem test_squeeze_4 : (after State.reset 0x32000004).map (fun t => (t.i, t.j, t.k, t.pending)) =
    some (0x04#8, 0x32#8, 0x53#8, [0x04#8, 0x14#8, 0x45#8, 0xCE#8]) := by decide
/-- OUT-4. -/
theorem test_squeeze_0 : (after State.reset 0x32000000) = some State.reset := by decide
/-- RB-6: S[0x81] after ABSORB_BYTE 0x41. -/
theorem test_readS : (after { State.reset with mem := [(0, 0x81#8), (1, 0x84#8), (129, 0x00#8), (132, 0x01#8)], a := 2#8 }
    0x40000081).map (fun t => (t.pending, t.a)) = some ([0x00#8], 2#8) := by decide
/-- RB-4. -/
theorem test_readS_disabled : (after noReadback 0x40000000).map (fun t => (t.status, t.pending)) =
    some (0x12#8, []) := by decide
/-- RB-2's READ_REG 4 and 5, after one DRIP. -/
theorem test_readReg : (after { State.reset with i := 1#8, j := 1#8, k := 2#8, z := 4#8 } 0x41000005).map State.pending =
    some [0x04#8] ∧ (after State.reset 0x41000004).map State.pending = some [0x01#8] := by decide
/-- REJ-14. -/
theorem test_readReg_6 : (after State.reset 0x41000006).map (fun t => (t.status, t.pending)) = some (0x0E#8, []) := by decide

/-! ### Rejections and STATUS (2.6) -/

/-- REJ-1, REJ-4. -/
theorem test_reject_codes : (after State.reset 0x00000000).map State.status = some 0x06#8 ∧
    (after State.reset 0x01000001).map State.status = some 0x0A#8 := by decide
/-- REJ-15: the first code is kept. -/
theorem test_reject_sticky : (after { State.reset with err := true, errcode := 1#3 } 0x41000006).map State.status =
    some 0x06#8 := by decide
/-- R32: BUSY is bit 0. -/
theorem test_status_busy : running.status = 0x01#8 := by decide

/-! ### The ports (R82, R84, R260) -/

/-- A running command: the host takes the byte presented, the engine emits the next, and the word waits. -/
theorem test_busy_edge : (edgeLater running).map (fun t => (t.received, t.buffer, t.pending, t.offered)) =
    some ([0x04#8], [0x14#8], [], [0x31000000#32]) := by decide
/-- A full buffer: the engine waits for the host. -/
theorem test_full_buffer : (edgeLater { running with edges := [hostNotReady] }).map (fun t => (t.received, t.buffer, t.pending)) = some ([], [0x04#8], [0x14#8]) := by decide
/-- A reset during a command: the bytes not yet taken are discarded, those taken stay with the host. -/
theorem test_reset_edge : edgeLater
      { running with received := [0xAA#8], j := 9#8, err := true, errcode := 2#3, edges := [resetting] } =
    some { State.reset with received := [0xAA#8], offered := [0x31000000#32] } := by decide
/-- A slow engine: a command without output stays BUSY while it stalls. -/
theorem test_stall : (edgeLater { State.reset with offered := [0x20000000#32], edges := [stalling] }).map State.busy =
    some true := by decide

/-! ### The session premise (R274) and the work counts (R271) -/

/-- No run without an INIT meets the premise: from an idle engine that is offered nothing, and from a reset edge, none. -/
theorem test_afterInit_needs_an_init {p s : State} (h : AfterInit p s) : ∃ w, portEvent p = .command w := by
  induction h with
  | accepted transferred _ _ => exact ⟨_, transferred⟩
  | waits _ _ _ ih => exact ih
theorem test_cleanSession_not_from_reset (session : List Word) (s : State) : ¬ CleanSession session State.reset s := by
  intro h
  obtain ⟨w, hw⟩ := test_afterInit_needs_an_init h.begun
  have hr : portEvent State.reset = .idle := by decide
  rw [hr] at hw
  cases hw
/-- SCR-7: 3 crush swaps. -/
theorem test_crush_work : (countedRun .crush { State.reset with mem := [(0, 0x80#8), (1, 0xFF#8), (128, 0x00#8), (255, 0x01#8)] }).work =
    ⟨0, 128, 3, 0⟩ := by decide +kernel
/-- R271: SQUEEZE 4 with a = 0. -/
theorem test_squeeze_work : (countedRun (.squeeze 4#16) State.reset).work = ⟨4, 0, 4, 4⟩ := by decide

/-! ### The assembler (R79) and the host's arithmetic (R203, R210, R211) -/

theorem test_asm_swap : assemble ["SWAP 0, 255".toList] = some [0x0200FF00#32] := by decide +kernel
theorem test_asm_quoted : assembleLine "ABSORB_BYTE 'A'".toList = some [.absorbByte 0x41#8] := by decide +kernel
theorem test_asm_register : assembleLine "READ_REG w ; the stride".toList = some [.readReg 4#8] := by decide +kernel
theorem test_asm_unfit : assembleLine "ABSORB_NIBBLE 16".toList = none := by decide +kernel
theorem test_asm_hex : assembleLine "SQUEEZE 0x100".toList = some [.squeeze 256#16] := by decide +kernel
/-- HOST-9: the keystream of an empty key is OUT-7's. -/
theorem test_encrypt_empty_key : encryptData [0#8, 0#8, 0#8] [] noReadback = some [0x04#8, 0x14#8, 0x45#8] := by decide +kernel
/-- HOST-16: the length byte of L = 300, and the count cut to 65535. -/
theorem test_length_byte : lengthByte 300 = 0x2C#8 ∧ squeezeArg 70000 = 65535#16 := by decide

/-! ### Witnesses: for each statement with hypotheses, concrete values that meet them, clause by clause -/

theorem witness_EncodedCommandDecodesBack : (Instr.readReg 0#8).wf = true ∧ (Instr.readReg 5#8).wf = true ∧
    (Instr.squeeze 65535#16).wf = true := by decide
theorem witness_DecodedWordIsItsEncoding : decode true 0x41000005#32 = .ok (.readReg 5#8) ∧
    decode false 0x0200FF00#32 = .ok (.swap 0#8 255#8) := by decide
/-- One word for each outcome: no row; readback absent; a reserved bit; the register numbers 6 and 5. -/
theorem witness_RejectionCauseFollowsThePriority : rowOf (Word.opc 0x00000000#32) = none ∧
    (Word.opc 0x40000000#32 = 0x40#8 ∧ decode false 0x40000000#32 = .error .readbackDisabled) ∧
    (0x41000106#32 &&& 0x00FFFF00#32 ≠ 0#32 ∧ decode true 0x41000106#32 = .error .reservedNonzero) ∧
    (5#8 < Word.fieldA 0x41000006#32 ∧ decode true 0x41000006#32 = .error .badRegister) ∧
    (¬ 5#8 < Word.fieldA 0x41000005#32 ∧ decode true 0x41000005#32 = .ok (.readReg 5#8)) := by decide
/-- An idle engine that is offered a DRIP, with ERR 0 and with ERR 1, and one that is offered a word it rejects. -/
def offeredDrip : State := { State.reset with offered := [0x31000000#32] }
def offeredIllegal : State := { State.reset with offered := [0x00000000#32] }
def offeredIllegalAgain : State := { State.reset with err := true, errcode := 2#3, offered := [0x00000000#32] }
theorem witness_StepRunsTheDecodedCommand :
    (offeredDrip.edge.rst = false ∧ offeredDrip.edge.cmdValid = true ∧ offeredDrip.busy = false ∧
      offeredDrip.offered = 0x31000000#32 :: [] ∧ decode offeredDrip.cfg.readback 0x31000000#32 = .ok .drip) ∧
    decode running.cfg.readback (tableWord 32 0x31000000) = .ok .drip := by decide
theorem witness_RejectedWordChangesOnlyStatus : ∀ s ∈ [offeredIllegal, offeredIllegalAgain],
    s.edge.rst = false ∧ s.edge.cmdValid = true ∧ s.busy = false ∧ s.offered = 0x00000000#32 :: [] ∧
      decode s.cfg.readback 0x00000000#32 = .error .badOpcode := by decide
theorem witness_RejectedWordChangesOnlyStatus_clauses : offeredIllegal.err = false ∧ offeredIllegalAgain.err = true := by decide
theorem witness_BusyEngineAcceptsNoWord : running.edge.rst = false ∧ running.busy = true := by decide
theorem witness_ReadyHostTakesTheOldestByte :
    (running.edge.rst = false ∧ running.buffer = 0x04#8 :: [] ∧ running.edge.outReady = true) ∧
    ({ running with edges := [hostNotReady] }.edge.rst = false ∧ { running with edges := [hostNotReady] }.buffer = 0x04#8 :: [] ∧
      { running with edges := [hostNotReady] }.edge.outReady = false) := by decide
/-- A full buffer, a stalled engine, and an empty buffer with a byte to emit. -/
def unemitted : State := { State.reset with pending := [0x14#8] }
theorem witness_EngineWaitsWhileTheBufferIsFull :
    (∀ s ∈ [{ running with edges := [hostNotReady] }, { unemitted with edges := [stalling] }, unemitted],
      s.edge.rst = false ∧ s.busy = true ∧ (s.edge.outReady = false ∨ s.buffer = [])) ∧
    running.cfg.outDepth ≤ running.buffer.length ∧ { unemitted with edges := [stalling] }.edge.stall = true ∧
    (unemitted.buffer.length < unemitted.cfg.outDepth ∧ unemitted.edge.stall = false ∧ unemitted.pending = 0x14#8 :: []) := by
  decide
theorem witness_ResetEdgeGivesTheResetState : { running with edges := [resetting] }.edge.rst = true := by decide
theorem witness_ResetLeavesTheTabledValues : State.reset = State.reset ∧ noReadback = State.resetWith noReadback.cfg := by decide
theorem witness_IdleEngineKeepsItsState : ∀ s ∈ [State.reset, { offeredDrip with edges := [notOffering] }],
    s.edge.rst = false ∧ s.busy = false ∧ (s.edge.cmdValid = false ∨ s.offered = []) := by decide
/-- ERR is 1 and a command runs; ERR is 1 and a word other than INIT is rejected; ERR becomes 1. -/
theorem witness_ErrIsStickyUntilInitOrReset :
    (∀ s ∈ [{ running with err := true, errcode := 1#3 }, offeredIllegalAgain],
      (edgeLater s).isSome = true ∧ s.edge.rst = false ∧ s.err = true ∧
        (s.busy = true ∨ s.offered.head? ≠ some 0x01000000#32)) ∧
    (offeredIllegal.edge.rst = false ∧ offeredIllegal.err = false ∧
      (edgeLater offeredIllegal).map State.err = some true ∧ offeredIllegal.busy = false ∧
      offeredIllegal.edge.cmdValid = true) := by decide
theorem witness_RunningCommandCompletes : running.cfg.wf = true ∧ running.edges = [] := by decide
theorem witness_ResetCanLeaveAnyPrefix : running.cfg.wf = true ∧ ∀ n ∈ [0, 1, 2], n ≤ (running.buffer ++ running.pending).length := by
  decide

theorem witness_isStart : State.reset.IsStart := ⟨State.reset.cfg, rfl, [], [], rfl⟩
theorem witness_EveryStartMeetsTheInvariant : offeredDrip.IsStart := ⟨offeredDrip.cfg, rfl, [0x31000000#32], [], rfl⟩
theorem witness_inv : offeredDrip.Inv := by
  refine ⟨rfl, rfl, ?_, by decide, by decide, ⟨by decide, by decide⟩, by decide, by decide⟩
  have h : offeredDrip.S = id := funext fun v => State.resetWith_S offeredDrip.cfg v
  unfold State.IsPermutation
  rw [h]
  exact Function.bijective_id
/-- The state one DRIP later. -/
def dripped : State := { State.reset with i := 1#8, j := 1#8, k := 2#8, z := 4#8, pending := [4#8] }
theorem witness_StepKeepsTheInvariant : offeredDrip.Inv ∧ step offeredDrip = .next dripped := ⟨witness_inv, by rfl⟩
theorem witness_ReachableStatesAreSound : Reachable dripped :=
  .step (.start witness_EveryStartMeetsTheInvariant) witness_StepKeepsTheInvariant.2
theorem witness_CommandsOnlyPermuteTheTable : Instr.drip ≠ .init ∧ exec .drip State.reset = .next dripped := ⟨by decide, by rfl⟩
/-- An engine offered the words of INIT and DRIP, and what the edge that transfers the INIT leaves. -/
def offeredSession : State := { State.reset with offered := [0x01000000#32, 0x31000000#32], j := 9#8, err := true, errcode := 1#3 }
def begunSession : State := { State.reset with offered := [0x31000000#32] }
theorem witness_afterInit : AfterInit offeredSession begunSession :=
  .accepted (w := 0x01000000#32) (by rfl) (by rfl) (by rfl)
theorem witness_InitLeavesWhatResetLeaves : (offeredSession.edge.rst = false ∧ offeredSession.edge.cmdValid = true ∧
    offeredSession.busy = false ∧ offeredSession.offered = 0x01000000#32 :: [0x31000000#32]) ∧
    begunSession.busy = false ∧ [0x31000000#32] <+: begunSession.offered := by decide
theorem witness_cleanSession : CleanSession ([Instr.drip].map encode) offeredSession begunSession :=
  ⟨witness_afterInit, State.resetWith_S begunSession.cfg, by decide, by decide, by decide, by decide⟩
theorem witness_CleanSessionRunsToItsEnd : CleanSession ([Instr.drip].map encode) offeredSession begunSession ∧
    (∀ i ∈ [Instr.drip], i.wf = true) ∧ begunSession.cfg.wf = true ∧ begunSession.edges = [] ∧
    (∀ i ∈ [Instr.drip], decode begunSession.cfg.readback (encode i) = .ok i) :=
  ⟨witness_cleanSession, by simp [Instr.wf], by decide, rfl, by intro i hi; cases List.mem_singleton.mp hi; rfl⟩
theorem witness_SwapExchangesTwoEntries : (5#8 : Byte) = 5#8 := rfl
theorem witness_SwapTwiceRestoresTheState : Memory.wf [(0, 0xFF#8), (255, 0x00#8)] = true := by decide
/-- Both ends of the counter's range below the threshold, and the threshold. -/
theorem witness_AbsorbNibbleSwapsAndCounts : ∀ a ∈ [0#8, 127#8], a ≤ 128#8 ∧ a ≠ 128#8 := by decide
theorem witness_AbsorbNibbleSwapsAndCounts_threshold : { State.reset with a := 128#8 }.a = 128#8 := rfl
theorem witness_AbsorbStopOnlyCounts : (∀ a ∈ [0#8, 127#8], { State.reset with a := a }.a ≠ 128#8) ∧
    { State.reset with a := 128#8 }.a = 128#8 := by decide
theorem witness_AbsorbingUpToTheThresholdDoesNotShuffle : State.reset.a.toNat + (List.replicate 128 0#4).length ≤ 128 := by
  rw [List.length_replicate]
  decide
theorem witness_UpdateStepsThePermutation : State.reset.update.i = State.reset.update.j := by decide
theorem witness_WhipIsFiveHundredTwelveUpdates : State.reset.w.toNat % 2 = 1 := by decide
/-- Both ends of the range of v, on a permutation. -/
theorem witness_CrushOrdersEveryPair : (∀ v ∈ [0#8, 127#8], v < 128#8) ∧ State.reset.IsPermutation :=
  ⟨by decide, by
    have h : State.reset.S = id := funext fun v => State.resetWith_S State.reset.cfg v
    unfold State.IsPermutation
    rw [h]
    exact Function.bijective_id⟩
theorem witness_CrushTwiceIsCrushOnce : exec .crush State.reset = .next State.reset.crush := by
  unfold exec execCrush
  rfl
theorem witness_DripShufflesPendingMaterialFirst : State.reset.a = 0#8 ∧
    (0#8 < { State.reset with a := 1#8 }.a ∧ 0#8 < { State.reset with a := 128#8 }.a) := by decide
theorem witness_SqueezeIsShuffleThenDrips : State.reset.a = 0#8 ∧ 0#8 < { State.reset with a := 1#8 }.a ∧
    (256#16 ≤ 256#16 ∧ 256#16 ≤ 65535#16) := by decide
theorem witness_ReadbackEmitsTheSelectedByte : State.reset.cfg.readback = true := by decide
theorem witness_UnavailableReadbackIsRejected : noReadback.cfg.readback = false ∧ State.reset.cfg.readback = true ∧
    (5#8 < 6#8 ∧ 5#8 < 255#8) := by decide
/-- The words of READ_S and READ_REG; a command that emits without readback; a word and a command of neither. -/
theorem witness_ReadbackParameterChangesNoOtherCommand :
    ((0x40000000#32).extractLsb' 24 8 = 0x40#8 ∧ (0x41000000#32).extractLsb' 24 8 = 0x41#8) ∧
    (noReadback.cfg.readback = false ∧ exec .drip noReadback = .next { dripped with cfg := noReadback.cfg } ∧
      dripped.pending ≠ noReadback.pending) ∧
    ((0x31000000#32).extractLsb' 24 8 ≠ 0x40#8 ∧ (0x31000000#32).extractLsb' 24 8 ≠ 0x41#8) ∧
    ((∀ x, Instr.drip ≠ .readS x) ∧ (∀ r, Instr.drip ≠ .readReg r) ∧ exec .drip State.reset = .next dripped) :=
  ⟨by decide, ⟨by decide, by rfl, by decide⟩, by decide, by simp, by simp, by rfl⟩
theorem witness_ByteCountIsFixedByTheCommand :
    (offeredIllegal.edge.rst = false ∧ offeredIllegal.busy = false ∧ offeredIllegal.offered = 0x00000000#32 :: [] ∧
      decode offeredIllegal.cfg.readback 0x00000000#32 = .error .badOpcode ∧ (edgeLater offeredIllegal).isSome = true) ∧
    exec .drip State.reset = .next dripped := ⟨by decide, by rfl⟩
/-- A command that changes the table, with a below, and a counter at neither edge of ABSORB_BYTE's two nibbles. -/
theorem witness_EveryCommandWritesOnlyItsRow : exec .drip State.reset = .next dripped ∧ State.reset.a = 0#8 ∧
    (∀ a ∈ [0#8, 126#8], { State.reset with a := a }.a ≠ 127#8 ∧ { State.reset with a := a }.a ≠ 128#8) ∧
    exec (.squeeze 0#16) State.reset = .next State.reset ∧ State.reset.cfg.readback = true ∧ (5#8 : Byte) ≤ 5#8 :=
  ⟨by rfl, by decide, by decide, by rfl, by decide, by decide⟩
theorem witness_WorkIsBounded : ∀ v : Byte, v < 128#8 → State.reset.S v ≤ State.reset.S (255#8 - v) := by
  intro v hv
  rw [show State.reset.S v = v from State.resetWith_S _ v, show State.reset.S (255#8 - v) = 255#8 - v from State.resetWith_S _ _]
  bv_omega
theorem witness_SessionBytesDependOnNoEarlierState : State.reset.cfg.readback = running.cfg.readback := by decide
theorem witness_DigestLengthIsCappedAt256 : (0 : Nat) = 0 ∧ ∀ n ∈ [1, 256, 300], n ≠ 0 := by decide
/-- The words of INIT and DRIP, offered together. -/
theorem witness_PortsRunTheOfferedCommands : ∃ t,
    (∀ i ∈ [Instr.init, .drip], i.wf = true) ∧ State.reset.cfg.wf = true ∧
    { State.reset with offered := [Instr.init, .drip].map encode }.busy = false ∧
    { State.reset with offered := [Instr.init, .drip].map encode }.edges = [] ∧
    { State.reset with offered := [Instr.init, .drip].map encode }.offered = [Instr.init, .drip].map encode ∧
    runSeq [.init, .drip] { State.reset with offered := [Instr.init, .drip].map encode } = .next t ∧ t.received = [4#8] :=
  ⟨_, by decide, by decide, by decide, by decide, by decide, by rfl, by decide⟩
theorem witness_AssemblerRejectsUnfitOperands : asmCommand "READ_REG" [.number 5] = some (.readReg 5#8) ∧
    asmCommand "READ_REG" [.number 6] = none := by decide

end Sys2Proof.Tests
end

section
/-! SUPPORT. What every command but INIT does to S, a and w (10_state R22, R23, R29, R30): one relation between the states before
and after, kept by each operation of the engine. -/

namespace Sys2Proof.Machine

/-! ### The relation -/

/-- The table of `t` is the table of `s` with its entries permuted (R22). -/
def State.Rearranged (s t : State) : Prop := ∃ σ : Equiv.Perm Byte, ∀ v : Byte, t.S v = s.S (σ v)

/-- What every command but INIT does to the sound part of the state: the entries of S are permuted (R22), a stays in its range
(R29), and w keeps its parity (R30). -/
structure State.Evolved (s t : State) : Prop where
  table : s.Rearranged t
  counter : s.a ≤ 128#8 → t.a ≤ 128#8
  stride : t.w.toNat % 2 = s.w.toNat % 2

theorem State.Rearranged.trans {s t u : State} (h : s.Rearranged t) (h' : t.Rearranged u) : s.Rearranged u := by
  obtain ⟨σ, hσ⟩ := h
  obtain ⟨τ, hτ⟩ := h'
  exact ⟨τ.trans σ, fun v => by rw [hτ, hσ, Equiv.trans_apply]⟩

theorem State.Evolved.trans {s t u : State} (h : s.Evolved t) (h' : t.Evolved u) : s.Evolved u :=
  ⟨h.table.trans h'.table, fun hs => h'.counter (h.counter hs), h'.stride.trans h.stride⟩

theorem State.evolved_of_eq {s t : State} (hm : t.mem = s.mem) (ha : t.a = s.a) (hw : t.w = s.w) : s.Evolved t :=
  ⟨⟨1, fun v => by rw [Equiv.Perm.one_apply, State.S_def, State.S_def, hm]⟩, fun h => ha ▸ h, by rw [hw]⟩

theorem State.Evolved.refl (s : State) : s.Evolved s := State.evolved_of_eq rfl rfl rfl

/-- A new counter within the range may be set after any evolution. -/
theorem State.Evolved.setA {s t : State} (h : s.Evolved t) {v : Byte} (hv : s.a ≤ 128#8 → v ≤ 128#8) :
    s.Evolved (t.setA v) :=
  ⟨h.table, hv, h.stride⟩

/-! ### The scrambler -/

theorem State.rearranged_swap (s : State) (x y : Byte) : s.Rearranged (s.swap x y) := by
  refine ⟨Equiv.swap x y, fun v => ?_⟩
  rw [State.S_swap, Equiv.swap_apply_def]
  split_ifs <;> rfl

theorem State.evolved_swap (s : State) (x y : Byte) : s.Evolved (s.swap x y) := ⟨s.rearranged_swap x y, id, rfl⟩

theorem State.evolved_update (s : State) : s.Evolved s.update :=
  (State.evolved_of_eq s.stepIndices_mem s.stepIndices_a s.stepIndices_w).trans (State.evolved_swap _ _ _)

/-- The stride advances by 2, so its parity stays (R141). -/
theorem State.evolved_setW_add_two (s : State) : s.Evolved (s.setW (s.w + 2#8)) :=
  ⟨⟨1, fun _ => rfl⟩, id, by simp only [State.setW_w]; bv_omega⟩

theorem State.evolved_whip (s : State) : s.Evolved s.whip := by
  unfold State.whip
  exact (iterate_related State.Evolved.refl (fun _ _ _ => State.Evolved.trans) State.evolved_update whipLength s).trans
    (State.evolved_setW_add_two _)

theorem State.evolved_crushPair (s : State) (v : Byte) : s.Evolved (s.crushPair v) := by
  unfold State.crushPair
  split
  · exact s.evolved_swap _ _
  · exact State.Evolved.refl s

theorem State.evolved_crush (s : State) : s.Evolved s.crush := by
  unfold State.crush
  exact foldl_related State.Evolved.refl (fun _ _ _ => State.Evolved.trans) State.evolved_crushPair crushRange s

theorem State.evolved_shuffle (s : State) : s.Evolved s.shuffle := by
  unfold State.shuffle
  have h : s.Evolved s.whip.crush.whip.crush.whip :=
    (((s.evolved_whip.trans (State.evolved_crush _)).trans (State.evolved_whip _)).trans (State.evolved_crush _)).trans
      (State.evolved_whip _)
  exact h.setA fun _ => by decide

/-! ### Absorption -/

theorem State.evolved_threshold (s : State) : s.Evolved s.threshold := by
  unfold State.threshold
  split
  · exact s.evolved_shuffle
  · exact State.Evolved.refl s

/-- After the threshold test there is room in the counter for one more (R29, R123). -/
theorem State.threshold_a_add_one_le {s : State} (h : s.a ≤ 128#8) : s.threshold.a + 1#8 ≤ 128#8 := by
  unfold State.threshold
  split
  · rw [State.shuffle_a]; decide
  next hne => bv_omega

theorem State.evolved_absorbNibble (s : State) (v : Nibble) : s.Evolved (s.absorbNibble v) :=
  (s.evolved_threshold.trans (State.evolved_swap _ _ _)).setA State.threshold_a_add_one_le

theorem State.evolved_absorbByte (s : State) (b : Byte) : s.Evolved (s.absorbByte b) :=
  (s.evolved_absorbNibble _).trans (State.evolved_absorbNibble _ _)

theorem State.evolved_absorbStop (s : State) : s.Evolved s.absorbStop :=
  s.evolved_threshold.setA State.threshold_a_add_one_le

/-! ### Output, emission and rejection -/

theorem State.evolved_drain (s : State) : s.Evolved s.drain := by
  unfold State.drain
  split
  · exact s.evolved_shuffle
  · exact State.Evolved.refl s

theorem State.evolved_output (s : State) : s.Evolved s.output := State.evolved_of_eq rfl rfl rfl

theorem State.evolved_emit (s : State) (b : Byte) : s.Evolved (s.emit b) :=
  State.evolved_of_eq (s.emit_mem b) (s.emit_a b) (s.emit_w b)

theorem State.evolved_emitDrip (s : State) : s.Evolved s.emitDrip :=
  ((s.evolved_drain.trans (State.evolved_update _)).trans (State.evolved_output _)).trans (State.evolved_emit _ _)

theorem State.evolved_squeeze (s : State) (count : Nat) : s.Evolved (s.squeeze count) :=
  s.evolved_drain.trans
    (iterate_related State.Evolved.refl (fun _ _ _ => State.Evolved.trans) State.evolved_emitDrip count _)

theorem State.evolved_reject (s : State) (c : Rejection) : s.Evolved (s.reject c) :=
  State.evolved_of_eq (s.reject_mem c) (s.reject_a c) (s.reject_w c)

/-! ### Commands -/

theorem execReadS_evolved (x : Byte) (s : State) : ∃ t, execReadS x s = .next t ∧ s.Evolved t := by
  unfold execReadS
  split
  · exact ⟨_, rfl, s.evolved_emit _⟩
  · exact ⟨_, rfl, s.evolved_reject _⟩

theorem execReadReg_evolved (r : Byte) (s : State) : ∃ t, execReadReg r s = .next t ∧ s.Evolved t := by
  unfold execReadReg
  split
  · split
    · exact ⟨_, rfl, s.evolved_emit _⟩
    · exact ⟨_, rfl, s.evolved_reject _⟩
  · exact ⟨_, rfl, s.evolved_reject _⟩

/-- Every command but INIT has a next state, and it is an evolution of the state before (R22, R29, R30, R231). -/
theorem exec_evolved {i : Instr} (hi : i ≠ .init) (s : State) : ∃ t, exec i s = .next t ∧ s.Evolved t := by
  cases i with
  | init => exact absurd rfl hi
  | swap x y => exact ⟨_, rfl, s.evolved_swap x y⟩
  | absorbNibble v => exact ⟨_, rfl, s.evolved_absorbNibble v⟩
  | absorbByte b => exact ⟨_, rfl, s.evolved_absorbByte b⟩
  | absorbStop => exact ⟨_, rfl, s.evolved_absorbStop⟩
  | update => exact ⟨_, rfl, s.evolved_update⟩
  | whip => exact ⟨_, rfl, s.evolved_whip⟩
  | crush => exact ⟨_, rfl, s.evolved_crush⟩
  | shuffle => exact ⟨_, rfl, s.evolved_shuffle⟩
  | output => exact ⟨_, rfl, s.evolved_output.trans (State.evolved_emit _ _)⟩
  | drip => exact ⟨_, rfl, s.evolved_emitDrip⟩
  | squeeze n => exact ⟨_, rfl, s.evolved_squeeze _⟩
  | readS x => exact execReadS_evolved x s
  | readReg r => exact execReadReg_evolved r s

/-- Everything a command can do to S, a and w: INIT sets them as reset does, every other command evolves them. -/
theorem exec_cases {i : Instr} {s t : State} (h : exec i s = .next t) :
    (i = .init ∧ t = s.initializeState.clearErr) ∨ (i ≠ .init ∧ s.Evolved t) := by
  by_cases hi : i = .init
  · subst hi
    exact .inl ⟨rfl, (Host.Outcome.next.inj h).symm⟩
  · obtain ⟨u, hu, he⟩ := exec_evolved hi s
    obtain rfl : u = t := Host.Outcome.next.inj (hu.symm.trans h)
    exact .inr ⟨hi, he⟩

end Sys2Proof.Machine
end

section
/-! SUPPORT. Soundness of the state (10_state R23, R29, R30): every start has it and every step keeps it. The statements of
10_state about reset and about the reachable states. -/

namespace Sys2Proof.Machine

/-- S is a bijection, a is within its range and w is odd (R23, R29, R30). -/
structure State.Sound (s : State) : Prop where
  permutation : s.IsPermutation
  counter : s.a ≤ 128#8
  stride : s.w.toNat % 2 = 1

/-- A bijection with its entries permuted is a bijection (R22, R23). -/
theorem State.Rearranged.isPermutation {s t : State} (h : s.Rearranged t) (hs : s.IsPermutation) : t.IsPermutation := by
  obtain ⟨σ, hσ⟩ := h
  have hS : t.S = s.S ∘ σ := funext hσ
  unfold State.IsPermutation
  rw [hS]
  exact Function.Bijective.comp hs σ.bijective

theorem State.Evolved.sound {s t : State} (h : s.Evolved t) (hs : s.Sound) : t.Sound :=
  ⟨h.table.isPermutation hs.permutation, h.counter hs.counter, h.stride.trans hs.stride⟩

/-- The values that reset and INIT give are sound (R41, R101). -/
theorem State.sound_of_reset_values {s : State} (hS : ∀ v : Byte, s.S v = v) (ha : s.a = 0#8) (hw : s.w = 1#8) : s.Sound := by
  refine ⟨?_, by rw [ha]; decide, by rw [hw]; decide⟩
  have hid : s.S = id := funext hS
  unfold State.IsPermutation
  rw [hid]
  exact Function.bijective_id

theorem State.IsStart.sound {s : State} (h : s.IsStart) : s.Sound := by
  obtain ⟨c, -, offered, edges, rfl⟩ := h
  exact State.sound_of_reset_values (State.resetWith_S c) rfl rfl

theorem State.sound_resetEdge (s : State) : s.resetEdge.Sound :=
  State.sound_of_reset_values (State.resetWith_S s.cfg) rfl rfl

theorem exec_keeps_sound {i : Instr} {s t : State} (h : exec i s = .next t) (hs : s.Sound) : t.Sound := by
  rcases exec_cases h with ⟨-, rfl⟩ | ⟨-, he⟩
  · exact State.sound_of_reset_values s.initializeState_S rfl rfl
  · exact he.sound hs

/-- An edge of a running command moves bytes only (R33, R84). -/
theorem State.Flowed.evolved {s t : State} (h : s.Flowed t) : s.Evolved t :=
  State.evolved_of_eq h.mem h.registers.a h.registers.w

theorem State.evolved_passEdge (s : State) : s.Evolved s.passEdge := State.evolved_of_eq rfl rfl rfl

theorem State.evolved_consumeWord (s : State) : s.Evolved s.consumeWord :=
  State.evolved_of_eq s.consumeWord_mem s.consumeWord_a s.consumeWord_w

theorem State.evolved_acceptWord (s : State) : s.Evolved s.acceptWord :=
  State.evolved_of_eq s.acceptWord_mem s.acceptWord_a s.acceptWord_w

theorem step_keeps_sound {s t : State} (h : step s = .next t) (hs : s.Sound) : t.Sound := by
  rcases step_cases h with ⟨-, rfl⟩ | ⟨-, -, rfl⟩ | ⟨-, -, -, rfl⟩ |
    ⟨word, words, -, -, -, -, ⟨cause, -, rfl⟩ | ⟨i, -, hx⟩⟩
  · exact s.sound_resetEdge
  · exact (flowed_busyEdge s).evolved.sound hs
  · exact s.evolved_passEdge.sound hs
  · exact (s.evolved_consumeWord.trans (State.evolved_reject _ cause)).sound hs
  · exact exec_keeps_sound hx (s.evolved_acceptWord.sound hs)

theorem Reachable.sound {s : State} (h : Reachable s) : s.Sound := by
  induction h with
  | start h => exact h.sound
  | step _ ht ih => exact step_keeps_sound ht ih

/-- With no error and no command running, STATUS reads 0 (R32). -/
theorem State.status_eq_zero {s : State} (herr : s.err = false) (hcode : s.errcode = 0#3) (hbusy : s.busy = false) :
    s.status = 0x00#8 := by
  unfold State.status
  rw [herr, hcode, hbusy]
  decide

/-- Settles O21, from the soundness of every start and of every step. -/
theorem reachableStatesAreSound : Obligations.ReachableStatesAreSound := by
  unfold Obligations.ReachableStatesAreSound
  intro s h
  obtain ⟨hperm, hcounter, hstride⟩ := h.sound
  exact ⟨hperm, hcounter, hstride⟩

/-- Settles O12, for every build: the model's reset state is one of them. -/
theorem resetLeavesTheTabledValues : Obligations.ResetLeavesTheTabledValues := by
  unfold Obligations.ResetLeavesTheTabledValues
  intro s hs
  obtain ⟨c, rfl⟩ : ∃ c, s = State.resetWith c := by
    rcases hs with h | h
    · exact ⟨_, h⟩
    · exact h
  exact ⟨State.resetWith_S c, rfl, rfl, rfl, rfl, rfl, rfl, rfl, rfl, rfl, rfl, rfl, rfl,
    State.status_eq_zero rfl rfl rfl⟩

end Sys2Proof.Machine
end

section
/-! SUPPORT. How many bytes a command emits (30_encoding R86): one relation between the states before and after that counts the
bytes, and its value for each command and for a rejected word. -/

namespace Sys2Proof.Machine

/-! ### Counting the bytes -/

/-- `t` has the bytes under way that `s` has, and exactly `n` more behind them (R84). -/
def State.Emitted (s : State) (n : Nat) (t : State) : Prop :=
  ∃ bs : List Byte, t.pending = s.pending ++ bs ∧ bs.length = n

theorem State.emitted_zero_of_pending_eq {s t : State} (h : t.pending = s.pending) : s.Emitted 0 t :=
  ⟨[], by rw [h, List.append_nil], rfl⟩

theorem State.emitted_one_of_pending_eq {s t : State} {b : Byte} (h : t.pending = s.pending ++ [b]) : s.Emitted 1 t :=
  ⟨[b], h, rfl⟩

/-- The bytes of two operations in a row add up. -/
theorem State.Emitted.trans {s t u : State} {m n : Nat} (h : s.Emitted m t) (h' : t.Emitted n u) : s.Emitted (m + n) u := by
  obtain ⟨bs, ht, rfl⟩ := h
  obtain ⟨cs, hu, rfl⟩ := h'
  exact ⟨bs ++ cs, by rw [hu, ht, List.append_assoc], List.length_append⟩

/-! ### The operations -/

/-- No part of the scrambler emits. -/
theorem State.Scrambled.emitted {s t : State} (h : s.Scrambled t) : s.Emitted 0 t :=
  State.emitted_zero_of_pending_eq h.pending

theorem State.emitted_reject (s : State) (c : Rejection) : s.Emitted 0 (s.reject c) :=
  State.emitted_zero_of_pending_eq (s.reject_pending c)

theorem State.emitted_emit (s : State) (b : Byte) : s.Emitted 1 (s.emit b) :=
  State.emitted_one_of_pending_eq (s.emit_pending b)

theorem State.emitted_emitDrip (s : State) : s.Emitted 1 s.emitDrip :=
  State.emitted_one_of_pending_eq s.emitDrip_frame.2.2

theorem State.emitted_emitDrips (n : Nat) (s : State) : s.Emitted n (Nat.iterate State.emitDrip n s) := by
  induction n generalizing s with
  | zero => exact (State.Scrambled.refl s).emitted
  | succ n ih =>
    rw [Function.iterate_succ_apply, Nat.add_comm]
    exact s.emitted_emitDrip.trans (ih s.emitDrip)

/-- One shuffle at most, then the drips (R172). -/
theorem State.emitted_squeeze (s : State) (count : Nat) : s.Emitted count (s.squeeze count) := by
  have h : s.Emitted (0 + count) (s.squeeze count) := s.scrambled_drain.emitted.trans (State.emitted_emitDrips count s.drain)
  rwa [Nat.zero_add] at h

/-! ### The readback commands -/

/-- The register numbers that name a register are 0 to 5 (R193). -/
theorem regOfNumber_isSome_iff (r : Byte) : (regOfNumber r).isSome = true ↔ r ≤ 5#8 := by
  revert r
  decide

theorem execReadS_emitted {x : Byte} {s t : State} (h : execReadS x s = .next t) :
    s.Emitted (if s.cfg.readback then 1 else 0) t := by
  unfold execReadS at h
  split at h
  next hb => cases h; rw [if_pos hb]; exact s.emitted_emit _
  next hb => cases h; rw [if_neg hb]; exact s.emitted_reject _

theorem execReadReg_emitted {r : Byte} {s t : State} (h : execReadReg r s = .next t) :
    s.Emitted (if s.cfg.readback = true ∧ r ≤ 5#8 then 1 else 0) t := by
  unfold execReadReg at h
  simp only [← regOfNumber_isSome_iff]
  split at h
  next hb =>
    split at h
    next n hr => cases h; rw [if_pos ⟨hb, by rw [hr]; rfl⟩]; exact s.emitted_emit _
    next hr => cases h; rw [if_neg (by simp [hr])]; exact s.emitted_reject _
  next hb => cases h; rw [if_neg (by simp [hb])]; exact s.emitted_reject _

/-! ### Rejected words -/

/-- Everything a step can do to an idle engine that is offered a word it rejects (R82, R232): the word waits, or is rejected. -/
theorem step_cases_of_rejected {s t : State} {w : Word} {ws : List Word} {c : Rejection} (hrst : s.edge.rst = false)
    (hbusy : s.busy = false) (hoffered : s.offered = w :: ws) (hdecode : decode s.cfg.readback w = .error c)
    (h : step s = .next t) : t = s.passEdge ∨ t = s.consumeWord.reject c := by
  rcases step_cases h with ⟨hreset, -⟩ | ⟨-, hrunning, -⟩ | ⟨-, -, -, ht⟩ | ⟨word, words, -, -, -, hword, hd⟩
  · exact absurd hreset (by simp [hrst])
  · exact absurd hrunning (by simp [hbusy])
  · exact .inl ht
  · obtain ⟨rfl, -⟩ : w = word ∧ ws = words := by simpa [hoffered] using hword
    simp only [hdecode, Except.error.injEq] at hd
    rcases hd with ⟨cause, rfl, ht⟩ | ⟨i, hi, -⟩
    · exact .inr ht
    · cases hi

/-- Settles O44, with a count for each command and from what a rejected word does. -/
theorem byteCountIsFixedByTheCommand : Obligations.ByteCountIsFixedByTheCommand := by
  unfold Obligations.ByteCountIsFixedByTheCommand
  refine ⟨fun s t w ws c hrst hbusy hoffered hdecode h => ?_, fun i s t h => ?_⟩
  · rcases step_cases_of_rejected hrst hbusy hoffered hdecode h with rfl | rfl
    · exact ⟨rfl, rfl⟩
    · simp
  · cases i with
    | init => cases h; exact State.emitted_zero_of_pending_eq rfl
    | swap x y => cases h; exact (s.scrambled_swap x y).emitted
    | absorbNibble v => cases h; exact (s.scrambled_absorbNibble v).emitted
    | absorbByte b => cases h; exact ((s.scrambled_absorbNibble _).trans (State.scrambled_absorbNibble _ _)).emitted
    | absorbStop => cases h; exact (s.scrambled_threshold.trans (State.scrambled_setA _ _)).emitted
    | update => cases h; exact s.scrambled_update.emitted
    | whip => cases h; exact s.scrambled_whip.emitted
    | crush => cases h; exact s.scrambled_crush.emitted
    | shuffle => cases h; exact s.scrambled_shuffle.emitted
    | output => cases h; exact s.output.emitted_emit s.output.z
    | drip => cases h; exact s.emitted_emitDrip
    | squeeze n => cases h; exact s.emitted_squeeze (squeezeCount n)
    | readS x => exact execReadS_emitted h
    | readReg r => exact execReadReg_emitted h

end Sys2Proof.Machine
end

section
/-! SUPPORT. The table primitives (40_table R100 to R103): what SWAP exchanges, and what INIT sets. -/

namespace Sys2Proof.Machine

/-! ### SWAP -/

/-- A swap exchanges the two entries (R100), x = y included. -/
theorem State.exchanged_swap (s : State) (x y : Byte) : s.Exchanged (s.swap x y) x y where
  first := by rw [State.S_swap, if_pos rfl]
  second := by
    rw [State.S_swap]
    by_cases hyx : y = x
    · rw [if_pos hyx, hyx]
    · rw [if_neg hyx, if_pos rfl]
  others v hx hy := by rw [State.S_swap, if_neg hx, if_neg hy]

/-- An entry exchanged with itself leaves the table (R103). -/
theorem State.Exchanged.sameTable {s t : State} {x : Byte} (h : s.Exchanged t x x) : s.SameTable t := by
  intro v
  by_cases hv : v = x
  · rw [hv, h.first]
  · exact h.others v hv hv

theorem State.swap_registers (s : State) (x y : Byte) : s.SameRegisters (s.swap x y) := ⟨rfl, ⟨rfl, rfl, rfl⟩, rfl, rfl⟩

theorem exec_swap (x y : Byte) (s : State) : exec (.swap x y) s = .next (s.swap x y) := rfl

/-- Settles O25, from what a swap exchanges and the scrambler's frame. -/
theorem swapExchangesTwoEntries : Obligations.SwapExchangesTwoEntries := by
  unfold Obligations.SwapExchangesTwoEntries
  intro s x y
  have hx : s.Exchanged (s.swap x y) x y := s.exchanged_swap x y
  obtain ⟨hports, hstatus, hpending, -⟩ := s.scrambled_swap x y
  refine ⟨s.swap x y, exec_swap x y s, hx, s.swap_registers x y, hstatus, hpending, hports, ?_⟩
  rintro rfl
  exact hx.sameTable

/-! ### INIT -/

theorem exec_init (s : State) : exec .init s = .next s.initializeState.clearErr := rfl

/-- Neither the start of a session nor the clearing of STATUS reaches the ports (R101, R102). -/
theorem State.samePorts_initializeState_clearErr (s : State) : s.SamePorts s.initializeState.clearErr :=
  ⟨rfl, rfl, rfl, rfl, rfl, rfl⟩

/-- Settles O23, from the values `initializeState` sets and what `clearErr` clears. -/
theorem initStartsASession : Obligations.InitStartsASession := by
  unfold Obligations.InitStartsASession
  intro s
  have hS : ∀ v : Byte, s.initializeState.clearErr.S v = v := fun v => by
    rw [State.clearErr_S, State.initializeState_S]
  exact ⟨s.initializeState.clearErr, exec_init s, hS, rfl, rfl, rfl, rfl, rfl, rfl, rfl, rfl, rfl,
    s.samePorts_initializeState_clearErr⟩

end Sys2Proof.Machine
end

section
/-! SUPPORT. The Absorption pipeline (41_absorption R120 to R126): the two sides of the threshold test, and what one absorbed
nibble exchanges. -/

namespace Sys2Proof.Machine

/-! ### The threshold test -/

theorem State.threshold_of_ne {s : State} (h : s.a ≠ 128#8) : s.threshold = s := if_neg h

theorem State.threshold_of_eq {s : State} (h : s.a = 128#8) : s.threshold = s.shuffle := if_pos h

/-- A shuffled state has an empty counter (R143), so a second test shuffles nothing. -/
theorem State.threshold_shuffle (s : State) : s.shuffle.threshold = s.shuffle :=
  State.threshold_of_ne (by rw [State.shuffle_a]; decide)

/-! ### ABSORB_NIBBLE -/

/-- The swapped index stays in 128 to 143: the mod of R120 never wraps. -/
theorem nibbleIndex_mem_range (v : Nibble) : 128 ≤ (nibbleIndex v).toNat ∧ (nibbleIndex v).toNat ≤ 143 := by
  unfold nibbleIndex
  bv_omega

theorem State.absorbNibble_of_ne {s : State} (h : s.a ≠ 128#8) (v : Nibble) :
    s.absorbNibble v = (s.swap s.a (nibbleIndex v)).setA (s.a + 1#8) := by
  unfold State.absorbNibble
  rw [State.threshold_of_ne h]
  rfl

/-- A full counter shuffles first, and then the nibble is absorbed as from any state (R120). -/
theorem State.absorbNibble_of_eq {s : State} (h : s.a = 128#8) (v : Nibble) :
    s.absorbNibble v = s.shuffle.absorbNibble v := by
  unfold State.absorbNibble
  rw [State.threshold_of_eq h, State.threshold_shuffle]

theorem State.exchanged_absorbNibble {s : State} (h : s.a ≠ 128#8) (v : Nibble) :
    s.Exchanged (s.absorbNibble v) s.a (nibbleIndex v) := by
  rw [State.absorbNibble_of_ne h]
  obtain ⟨hfirst, hsecond, hothers⟩ := s.exchanged_swap s.a (nibbleIndex v)
  exact ⟨hfirst, hsecond, hothers⟩

theorem State.absorbNibble_a {s : State} (h : s.a ≠ 128#8) (v : Nibble) : (s.absorbNibble v).a = s.a + 1#8 := by
  rw [State.absorbNibble_of_ne h, State.setA_a]

theorem State.absorbNibble_sameIndices {s : State} (h : s.a ≠ 128#8) (v : Nibble) : s.SameIndices (s.absorbNibble v) := by
  rw [State.absorbNibble_of_ne h]
  exact ⟨rfl, rfl, rfl⟩

theorem State.absorbNibble_w {s : State} (h : s.a ≠ 128#8) (v : Nibble) : (s.absorbNibble v).w = s.w := by
  rw [State.absorbNibble_of_ne h, State.setA_w, State.swap_w]

theorem exec_shuffle (s : State) : exec .shuffle s = .next s.shuffle := rfl

theorem exec_absorbNibble (v : Nibble) (s : State) : exec (.absorbNibble v) s = .next (s.absorbNibble v) := rfl

/-- Settles O27, from the two sides of the threshold: at a = 128 the second exchange starts from the shuffled state, whose
counter is 0. -/
theorem absorbNibbleSwapsAndCounts : Obligations.AbsorbNibbleSwapsAndCounts := by
  unfold Obligations.AbsorbNibbleSwapsAndCounts
  intro s v
  refine ⟨nibbleIndex_mem_range v, fun _ _ => by bv_omega, fun h => ?below, fun h => ?full⟩
  case below =>
    obtain ⟨hports, hstatus, hpending, hz⟩ := s.scrambled_absorbNibble v
    exact ⟨s.absorbNibble v, exec_absorbNibble v s, State.exchanged_absorbNibble h v, State.absorbNibble_a h v,
      State.absorbNibble_sameIndices h v, State.absorbNibble_w h v, hz, hstatus, hpending, hports⟩
  case full =>
    have hzero : s.shuffle.a = 0#8 := s.shuffle_a
    have hne : s.shuffle.a ≠ 128#8 := by rw [hzero]; decide
    have hx := State.exchanged_absorbNibble hne v
    have ha := State.absorbNibble_a hne v
    rw [hzero] at hx ha
    exact ⟨s.shuffle, s.shuffle.absorbNibble v, exec_shuffle s, hzero,
      by rw [exec_absorbNibble, State.absorbNibble_of_eq h], exec_absorbNibble v s.shuffle, hx, ha⟩

/-! ### ABSORB_BYTE and ABSORB_STOP -/

theorem exec_absorbByte (b : Byte) (s : State) :
    exec (.absorbByte b) s = .next ((s.absorbNibble (lowNibble b)).absorbNibble (highNibble b)) := rfl

/-- Settles O28: ABSORB_BYTE is the two absorbed nibbles by its definition (R121). -/
theorem absorbByteIsLowThenHighNibble : Obligations.AbsorbByteIsLowThenHighNibble := by
  unfold Obligations.AbsorbByteIsLowThenHighNibble
  intro s b
  exact ⟨s.absorbNibble (lowNibble b), (s.absorbNibble (lowNibble b)).absorbNibble (highNibble b),
    exec_absorbNibble _ s, exec_absorbNibble _ _, exec_absorbByte b s⟩

theorem exec_absorbStop (s : State) : exec .absorbStop s = .next (s.threshold.setA (s.threshold.a + 1#8)) := rfl

/-- Settles O29, from the two sides of the threshold. -/
theorem absorbStopOnlyCounts : Obligations.AbsorbStopOnlyCounts := by
  unfold Obligations.AbsorbStopOnlyCounts
  refine fun s => ⟨fun h => ?below, fun h => ?full⟩
  case below =>
    rw [exec_absorbStop, State.threshold_of_ne h]
    rfl
  case full =>
    refine ⟨s.shuffle, exec_shuffle s, s.shuffle_a, ?_⟩
    rw [exec_absorbStop, State.threshold_of_eq h, State.shuffle_a]
    rfl

end Sys2Proof.Machine
end

section
/-! SUPPORT. UPDATE and WHIP (42_scrambler R140, R141): the registers and the table after one update, and i and w along a run of
updates. -/

namespace Sys2Proof.Machine

/-! ### UPDATE -/

@[simp] theorem State.update_i (s : State) : s.update.i = s.i + s.w := rfl
@[simp] theorem State.update_j (s : State) : s.update.j = s.k + s.S (s.j + s.S (s.i + s.w)) := rfl

/-- The new k is computed from the new i and, by the old table, the new j (R140). -/
theorem State.update_k (s : State) : s.update.k = s.i + s.w + s.k + s.S s.update.j := rfl

/-- An update exchanges the entries at the new i and j (R140): the step of the indices before it leaves the table. -/
theorem State.exchanged_update (s : State) : s.Exchanged s.update s.update.i s.update.j := by
  obtain ⟨hfirst, hsecond, hothers⟩ := s.stepIndices.exchanged_swap s.stepIndices.i s.stepIndices.j
  exact ⟨hfirst, hsecond, hothers⟩

theorem exec_update (s : State) : exec .update s = .next s.update := rfl

/-- Settles O31, from the registers and the exchange of one update and the scrambler's frame. -/
theorem updateStepsThePermutation : Obligations.UpdateStepsThePermutation := by
  unfold Obligations.UpdateStepsThePermutation
  intro s
  have hx : s.Exchanged s.update s.update.i s.update.j := s.exchanged_update
  obtain ⟨hports, hstatus, hpending, hz⟩ := s.scrambled_update
  refine ⟨s.update, exec_update s, s.update_i, s.update_j, s.update_k, hx, fun hij => ?_, s.update_a, s.update_w, hz, hstatus,
    hpending, hports⟩
  rw [hij] at hx
  exact hx.sameTable

/-! ### Runs of updates -/

/-- UPDATE n times runs the n updates (R58). -/
theorem execAll_replicate_update (n : Nat) (s : State) :
    execAll (List.replicate n .update) s = .next (Nat.iterate State.update n s) := by
  induction n generalizing s with
  | zero => rfl
  | succ n ih => exact ih s.update

theorem State.iterate_update_w (n : Nat) (s : State) : (Nat.iterate State.update n s).w = s.w :=
  iterate_related (R := fun s t => t.w = s.w) (fun _ => rfl) (fun _ _ _ h h' => h'.trans h) State.update_w n s

/-- Each update adds the same w to i (R140). -/
theorem State.iterate_update_i (n : Nat) (s : State) :
    (Nat.iterate State.update n s).i = s.i + BitVec.ofNat 8 n * s.w := by
  induction n with
  | zero => simp
  | succ n ih =>
    rw [Function.iterate_succ_apply', State.update_i, ih, State.iterate_update_w, BitVec.ofNat_add, BitVec.add_mul,
      BitVec.one_mul, BitVec.add_assoc]

/-! ### WHIP -/

/-- A whip is its 512 updates, then the stride (R141). -/
theorem State.whip_eq (s : State) : s.whip = (Nat.iterate State.update 512 s).setW (s.w + 2#8) := by
  unfold State.whip
  rw [whipLength_eq]
  dsimp only
  rw [State.iterate_update_w]

/-- 512 steps of w are two full rounds of the residues, so i ends where it began (R148). -/
theorem State.whip_i (s : State) : s.whip.i = s.i := by
  have hround : BitVec.ofNat 8 512 = 0#8 := rfl
  rw [State.whip_eq, State.setW_i, State.iterate_update_i, hround, BitVec.zero_mul, BitVec.add_zero]

/-- An odd byte has an inverse: it is coprime to 256. -/
theorem exists_mul_eq_one_of_odd {w : Byte} (hw : w.toNat % 2 = 1) : ∃ m : Byte, m * w = 1#8 := by
  have hcop : Nat.Coprime w.toNat (2 ^ 8) := (Nat.odd_iff.mpr hw).coprime_two_right.pow_right 8
  obtain ⟨m, -, hm⟩ := Nat.exists_mul_mod_eq_one_of_coprime hcop (by decide)
  refine ⟨BitVec.ofNat 8 m, BitVec.eq_of_toNat_eq ?_⟩
  rw [BitVec.mul_comm, BitVec.toNat_mul, BitVec.toNat_ofNat, Nat.mul_mod_mod, hm]
  rfl

/-- With an odd stride, repeated steps take i through all residues (R141). -/
theorem exists_steps_to_residue {w : Byte} (hw : w.toNat % 2 = 1) (i r : Byte) :
    ∃ n < 256, i + BitVec.ofNat 8 n * w = r := by
  obtain ⟨m, hm⟩ := exists_mul_eq_one_of_odd hw
  refine ⟨((r - i) * m).toNat, BitVec.isLt _, ?_⟩
  rw [BitVec.ofNat_toNat, BitVec.setWidth_eq, BitVec.mul_assoc, hm, BitVec.mul_one, BitVec.add_comm, BitVec.sub_add_cancel]

theorem exec_whip (s : State) : exec .whip s = .next s.whip := rfl

/-- Settles O32, from the run of 512 updates, the parity that a whip keeps and the inverse of an odd stride. -/
theorem whipIsFiveHundredTwelveUpdates : Obligations.WhipIsFiveHundredTwelveUpdates := by
  unfold Obligations.WhipIsFiveHundredTwelveUpdates
  intro s
  have hparity : (s.w + 2#8).toNat % 2 = s.w.toNat % 2 := s.evolved_setW_add_two.stride
  refine ⟨Nat.iterate State.update 512 s, execAll_replicate_update 512 s, s.iterate_update_w 512, ?_, hparity.trans,
    fun hodd => exists_steps_to_residue hodd s.i⟩
  rw [exec_whip, State.whip_eq]
  rfl

end Sys2Proof.Machine
end

section
/-! SUPPORT. CRUSH (42_scrambler R142): what it does to one pair of entries, and that the pairs do not meet, so that each is
ordered by its own comparison alone. -/

namespace Sys2Proof.Machine

/-! ### The pairs -/

/-- In `t` the smaller of the entries that `s` holds at v and 255 - v stands at v and the larger at 255 - v, by the unsigned
order (R142). -/
structure State.PairOrdered (s t : State) (v : Byte) : Prop where
  low : t.S v = if s.S (255#8 - v) < s.S v then s.S (255#8 - v) else s.S v
  high : t.S (255#8 - v) = if s.S (255#8 - v) < s.S v then s.S v else s.S (255#8 - v)

/-- The pair of `u` does not meet the pair of `v`. -/
structure PairsApart (u v : Byte) : Prop where
  low : v ≠ u ∧ v ≠ 255#8 - u
  high : 255#8 - v ≠ u ∧ 255#8 - v ≠ 255#8 - u

/-- Two of the 128 pairs of a crush do not meet. -/
theorem pairsApart_of_ne {u v : Byte} (hu : u < 128#8) (hv : v < 128#8) (h : u ≠ v) : PairsApart u v :=
  ⟨⟨h.symm, by bv_omega⟩, by bv_omega, by bv_omega⟩

/-- Ordering a pair needs nothing but its two entries, before and after. -/
theorem State.PairOrdered.of_same_pair {s s' t t' : State} {v : Byte} (h : s'.PairOrdered t' v)
    (hs : s'.S v = s.S v ∧ s'.S (255#8 - v) = s.S (255#8 - v))
    (ht : t.S v = t'.S v ∧ t.S (255#8 - v) = t'.S (255#8 - v)) : s.PairOrdered t v := by
  obtain ⟨hlow, hhigh⟩ := h
  rw [hs.1, hs.2] at hlow hhigh
  exact ⟨ht.1.trans hlow, ht.2.trans hhigh⟩

/-- On a permutation the two entries of a pair differ, so their order is strict (R23). -/
theorem State.PairOrdered.lt_of_isPermutation {s t : State} {v : Byte} (h : s.PairOrdered t v) (hs : s.IsPermutation) :
    t.S v < t.S (255#8 - v) := by
  have hne : s.S v ≠ s.S (255#8 - v) := fun he => by
    have hv : v = 255#8 - v := hs.injective he
    bv_omega
  rw [h.low, h.high]
  split
  next hlt => exact hlt
  next hge => bv_omega

/-! ### One pair of crush -/

theorem State.pairOrdered_crushPair (s : State) (v : Byte) : s.PairOrdered (s.crushPair v) v := by
  unfold State.crushPair
  by_cases h : s.S (255#8 - v) < s.S v
  · obtain ⟨hfirst, hsecond, -⟩ := s.exchanged_swap v (255#8 - v)
    simp only [if_pos h]
    exact ⟨by rw [hfirst, if_pos h], by rw [hsecond, if_pos h]⟩
  · simp only [if_neg h]
    exact ⟨by rw [if_neg h], by rw [if_neg h]⟩

/-- A pair of crush leaves every entry but its own two. -/
theorem State.S_crushPair_of_ne (s : State) {u x : Byte} (h : x ≠ u ∧ x ≠ 255#8 - u) : (s.crushPair u).S x = s.S x := by
  unfold State.crushPair
  split
  · exact (s.exchanged_swap u (255#8 - u)).others x h.1 h.2
  · rfl

/-! ### All pairs -/

/-- Pairs of crush leave an entry that is in none of them. -/
theorem State.S_foldl_crushPair_of_forall_ne (l : List Byte) (s : State) {x : Byte}
    (h : ∀ u ∈ l, x ≠ u ∧ x ≠ 255#8 - u) : (l.foldl State.crushPair s).S x = s.S x := by
  induction l generalizing s with
  | nil => rfl
  | cons u l ih =>
    rw [List.foldl_cons, ih _ fun y hy => h y (List.mem_cons_of_mem _ hy), s.S_crushPair_of_ne (h u List.mem_cons_self)]

/-- Distinct pairs of crush order each of them: those before a pair and those behind it leave its two entries. -/
theorem State.pairOrdered_foldl_crushPair (l : List Byte) (s : State) (hl : l.Nodup) (hlt : ∀ u ∈ l, u < 128#8) {v : Byte}
    (hv : v ∈ l) : s.PairOrdered (l.foldl State.crushPair s) v := by
  induction l generalizing s with
  | nil => simp at hv
  | cons u l ih =>
    obtain ⟨hul, hl'⟩ := List.nodup_cons.mp hl
    have hu : u < 128#8 := hlt u List.mem_cons_self
    have hlt' : ∀ x ∈ l, x < 128#8 := fun x hx => hlt x (List.mem_cons_of_mem _ hx)
    rw [List.foldl_cons]
    rcases List.mem_cons.mp hv with rfl | hvl
    · have hapart : ∀ x ∈ l, PairsApart x v := fun x hx =>
        pairsApart_of_ne (hlt' x hx) hu fun hxv => hul (hxv ▸ hx)
      exact (s.pairOrdered_crushPair v).of_same_pair ⟨rfl, rfl⟩
        ⟨State.S_foldl_crushPair_of_forall_ne l _ fun x hx => (hapart x hx).low,
          State.S_foldl_crushPair_of_forall_ne l _ fun x hx => (hapart x hx).high⟩
    · have hapart : PairsApart u v := pairsApart_of_ne hu (hlt' v hvl) fun huv => hul (huv ▸ hvl)
      exact (ih (s.crushPair u) hl' hlt' hvl).of_same_pair
        ⟨s.S_crushPair_of_ne hapart.low, s.S_crushPair_of_ne hapart.high⟩ ⟨rfl, rfl⟩

/-- The values of v in a crush are the bytes below 128 (R142). -/
theorem mem_crushRange {v : Byte} : v ∈ crushRange ↔ v < 128#8 := by
  unfold crushRange
  rw [List.mem_map]
  constructor
  · rintro ⟨n, hn, rfl⟩
    have : n < 128 := List.mem_range.mp hn
    bv_omega
  · intro hv
    exact ⟨v.toNat, List.mem_range.mpr (by bv_omega), by rw [BitVec.ofNat_toNat, BitVec.setWidth_eq]⟩

theorem crushRange_nodup : crushRange.Nodup := by
  unfold crushRange
  refine List.nodup_range.map_on fun m hm n hn h => ?_
  have hm' : m < 128 := List.mem_range.mp hm
  have hn' : n < 128 := List.mem_range.mp hn
  bv_omega

/-- CRUSH orders every pair (R142). -/
theorem State.pairOrdered_crush (s : State) {v : Byte} (hv : v < 128#8) : s.PairOrdered s.crush v := by
  unfold State.crush
  exact State.pairOrdered_foldl_crushPair crushRange s crushRange_nodup (fun _ => mem_crushRange.mp) (mem_crushRange.mpr hv)

theorem exec_crush (s : State) : exec .crush s = .next s.crush := rfl

/-- Settles O34, from the order of every pair, the registers a crush keeps and the scrambler's frame. -/
theorem crushOrdersEveryPair : Obligations.CrushOrdersEveryPair := by
  unfold Obligations.CrushOrdersEveryPair
  intro s
  obtain ⟨hports, hstatus, hpending, -⟩ := s.scrambled_crush
  refine ⟨s.crush, exec_crush s, fun v hv => ?_, s.crush_registers, hstatus, hpending, hports⟩
  have hpair : s.PairOrdered s.crush v := s.pairOrdered_crush hv
  exact ⟨hpair.low, hpair.high, hpair.lt_of_isPermutation⟩

end Sys2Proof.Machine
end

section
/-! SUPPORT. SHUFFLE (42_scrambler R143, R148): its three whips and two crushes, i and w along them, and that z is not read. -/

namespace Sys2Proof.Machine

/-- shuffle() is the fixed sequence, then a = 0 (R143). -/
theorem State.shuffle_eq (s : State) : s.shuffle = s.whip.crush.whip.crush.whip.setA 0#8 := by unfold State.shuffle; rfl

/-! ### i and w -/

theorem State.shuffle_i (s : State) : s.shuffle.i = s.i := by
  simp only [State.shuffle_eq, State.setA_i, State.whip_i, (State.crush_registers _).indices.i]

/-- Three whips advance w by 2 each, the crushes not at all (R148). -/
theorem State.shuffle_w (s : State) : s.shuffle.w = s.w + 6#8 := by
  simp only [State.shuffle_eq, State.setA_w, State.whip_w, (State.crush_registers _).w]
  bv_omega

/-- Settles O33, from i and w along a whip and a shuffle and the scrambler's frame. -/
theorem whipAndShuffleKeepI : Obligations.WhipAndShuffleKeepI := by
  unfold Obligations.WhipAndShuffleKeepI
  refine fun s => ⟨?whip, ?shuffle⟩
  case whip =>
    obtain ⟨hports, hstatus, hpending, hz⟩ := s.scrambled_whip
    exact ⟨s.whip, exec_whip s, s.whip_i, s.whip_w, s.whip_a, hz, hstatus, hpending, hports⟩
  case shuffle =>
    obtain ⟨hports, hstatus, hpending, hz⟩ := s.scrambled_shuffle
    exact ⟨s.shuffle, exec_shuffle s, s.shuffle_i, s.shuffle_w, s.shuffle_a, hz, hstatus, hpending, hports⟩

/-! ### The last output -/

theorem State.SamePorts.symm {s t : State} (h : s.SamePorts t) : t.SamePorts s :=
  ⟨h.cfg.symm, h.working.symm, h.buffer.symm, h.received.symm, h.offered.symm, h.edges.symm⟩

theorem State.SameStatus.symm {s t : State} (h : s.SameStatus t) : t.SameStatus s := ⟨h.err.symm, h.errcode.symm⟩

/-- Two states that agree on all but z differ by the write of z. -/
theorem State.eq_setZ_of_same {t u : State} (hcore : t.SameCore u) (ha : t.a = u.a) (hports : u.SamePorts t)
    (hstatus : u.SameStatus t) (hpending : t.pending = u.pending) : t = u.setZ t.z :=
  State.eq_of_same ⟨⟨hcore.mem, hcore.i, hcore.j, hcore.k, hcore.w⟩, ha, rfl⟩
    ⟨hports.cfg, hports.working, hports.buffer, hports.received, hports.offered, hports.edges⟩
    ⟨hstatus.err, hstatus.errcode⟩ hpending

/-- shuffle() neither reads nor writes z: another z goes through it unchanged (R143). -/
theorem State.shuffle_setZ (s : State) (z : Byte) : (s.setZ z).shuffle = s.shuffle.setZ z := by
  have hcore : (s.setZ z).SameCore s := ⟨rfl, rfl, rfl, rfl, rfl⟩
  have ha : (s.setZ z).shuffle.a = s.shuffle.a := by rw [State.shuffle_a, State.shuffle_a]
  have hports : s.SamePorts (s.setZ z) := ⟨rfl, rfl, rfl, rfl, rfl, rfl⟩
  have hstatus : s.SameStatus (s.setZ z) := ⟨rfl, rfl⟩
  have hs := s.scrambled_shuffle
  have hsz := (s.setZ z).scrambled_shuffle
  calc (s.setZ z).shuffle
      = s.shuffle.setZ (s.setZ z).shuffle.z :=
        State.eq_setZ_of_same hcore.shuffle ha ((hs.ports.symm.trans hports).trans hsz.ports)
          ((hs.status.symm.trans hstatus).trans hsz.status) (by rw [hsz.pending, State.setZ_pending, hs.pending])
    _ = s.shuffle.setZ z := by rw [hsz.z, State.setZ_z]

theorem State.setZ_setA (u : State) (v z : Byte) : (u.setA v).setZ z = { u with a := v, z := z } := rfl

/-! ### The sequence -/

/-- The five commands run the five operations of a shuffle in their order (R143). -/
theorem execAll_whip_crush_whip_crush_whip (s : State) :
    execAll [.whip, .crush, .whip, .crush, .whip] s = .next s.whip.crush.whip.crush.whip := rfl

/-- Settles O36, from the sequence of a shuffle and its indifference to z. -/
theorem shuffleIsWhipCrushWhipCrushWhip : Obligations.ShuffleIsWhipCrushWhipCrushWhip := by
  unfold Obligations.ShuffleIsWhipCrushWhipCrushWhip
  intro s z
  have hz : s.whip.crush.whip.crush.whip.z = s.z :=
    ((((s.scrambled_whip.trans (State.scrambled_crush _)).trans (State.scrambled_whip _)).trans
      (State.scrambled_crush _)).trans (State.scrambled_whip _)).z
  refine ⟨s.whip.crush.whip.crush.whip, execAll_whip_crush_whip_crush_whip s, hz, ?same, ?otherZ⟩
  case same =>
    rw [exec_shuffle, State.shuffle_eq]
    rfl
  case otherZ =>
    have hset : { s with z := z } = s.setZ z := rfl
    rw [hset, exec_shuffle, State.shuffle_setZ, State.shuffle_eq, State.setZ_setA]

end Sys2Proof.Machine
end

section
/-! SUPPORT. Output extraction (43_output R170 to R176): the bytes of OUTPUT, and the two sides of the test that shuffles pending
material in before a DRIP or a SQUEEZE. -/

namespace Sys2Proof.Machine

/-! ### The test of drip and squeeze -/

theorem State.drain_of_eq_zero {s : State} (h : s.a = 0#8) : s.drain = s := if_neg (by rw [h]; decide)

theorem State.drain_of_pos {s : State} (h : 0#8 < s.a) : s.drain = s.shuffle := if_pos h

/-- A shuffled state holds no pending material (R143), so a second test shuffles nothing. -/
theorem State.drain_shuffle (s : State) : s.shuffle.drain = s.shuffle := State.drain_of_eq_zero s.shuffle_a

/-! ### SQUEEZE -/

theorem exec_drip (s : State) : exec .drip s = .next s.emitDrip := rfl

theorem exec_squeeze (n : BitVec 16) (s : State) : exec (.squeeze n) s = .next (s.squeeze (squeezeCount n)) := rfl

/-- A command that is an operation of the state, repeated, is the operation repeated (R58). -/
theorem execAll_replicate_of_exec {i : Instr} {f : State → State} (h : ∀ s, exec i s = .next (f s)) (n : Nat) (s : State) :
    execAll (List.replicate n i) s = .next (Nat.iterate f n s) := by
  induction n generalizing s with
  | zero => rfl
  | succ n ih => simp only [List.replicate_succ, execAll, h, ih, Function.iterate_succ_apply]

/-- SQUEEZE n is its test, then min(n, 256) DRIPs (R172). -/
theorem exec_squeeze_eq_execAll_drip (n : BitVec 16) (s : State) :
    exec (.squeeze n) s = execAll (List.replicate (min n.toNat 256) .drip) s.drain := by
  rw [execAll_replicate_of_exec exec_drip, exec_squeeze]
  rfl

/-- Every length from the ceiling on is the ceiling (R172, R176). -/
theorem squeezeCount_of_ge {n : BitVec 16} (h : 256#16 ≤ n) : squeezeCount n = squeezeCount 256#16 := by
  have hn : 256 ≤ n.toNat := h
  exact Nat.min_eq_right hn

/-- Settles O40, from the two sides of the test and SQUEEZE as the DRIPs that follow it. -/
theorem squeezeIsShuffleThenDrips : Obligations.SqueezeIsShuffleThenDrips := by
  unfold Obligations.SqueezeIsShuffleThenDrips
  refine fun s n => ⟨?bytes, fun h => ?empty, fun h => ?pending, fun h => ?ceiling⟩
  case bytes =>
    obtain ⟨bs, hpending, hlength⟩ := s.emitted_squeeze (squeezeCount n)
    exact ⟨s.squeeze (squeezeCount n), exec_squeeze n s, bs, hlength, hpending⟩
  case empty => rw [exec_squeeze_eq_execAll_drip, State.drain_of_eq_zero h]
  case pending =>
    exact ⟨s.shuffle, exec_shuffle s, by rw [exec_squeeze_eq_execAll_drip, State.drain_of_pos h]⟩
  case ceiling => rw [exec_squeeze, exec_squeeze, squeezeCount_of_ge h]

/-! ### OUTPUT -/

/-- The three reads of an extraction, nested, by the old z (R170). -/
theorem State.output_z (s : State) : s.output.z = s.S (s.j + s.S (s.i + s.S (s.z + s.k))) := rfl

theorem exec_output (s : State) : exec .output s = .next (s.output.emit s.output.z) := rfl

/-- Settles O38: the three reads are `output_z`; the writes of OUTPUT, to z and to the output, leave the other fields by
definition. -/
theorem outputExtractsByThreeReads : Obligations.OutputExtractsByThreeReads := by
  unfold Obligations.OutputExtractsByThreeReads
  intro s
  have hindices : s.SameIndices (s.output.emit s.output.z) := ⟨rfl, rfl, rfl⟩
  have hstatus : s.SameStatus (s.output.emit s.output.z) := ⟨rfl, rfl⟩
  have hports : s.SamePorts (s.output.emit s.output.z) := ⟨rfl, rfl, rfl, rfl, rfl, rfl⟩
  exact ⟨s.output.emit s.output.z, exec_output s, s.output_z, s.output.emit_pending s.output.z, rfl, rfl, hindices, rfl, hstatus,
    hports⟩

/-! ### DRIP -/

/-- With nothing pending a drip is one update and one extraction (R171). -/
theorem State.emitDrip_of_eq_zero {s : State} (h : s.a = 0#8) :
    s.emitDrip = s.update.output.emit s.update.output.z := by
  unfold State.emitDrip State.drip
  rw [State.drain_of_eq_zero h]

/-- With material pending a drip is a shuffle, then a drip as from any state (R171). -/
theorem State.emitDrip_of_pos {s : State} (h : 0#8 < s.a) : s.emitDrip = s.shuffle.emitDrip := by
  unfold State.emitDrip State.drip
  rw [State.drain_of_pos h, State.drain_shuffle]

/-- Settles O39, from the two sides of the test. -/
theorem dripShufflesPendingMaterialFirst : Obligations.DripShufflesPendingMaterialFirst := by
  unfold Obligations.DripShufflesPendingMaterialFirst
  refine fun s => ⟨fun h => ?empty, fun h => ?pending⟩
  case empty =>
    exact ⟨s.update, s.update.output.emit s.update.output.z, exec_update s, exec_output s.update,
      by rw [exec_drip, State.emitDrip_of_eq_zero h]⟩
  case pending =>
    exact ⟨s.shuffle, s.shuffle.emitDrip, exec_shuffle s, s.shuffle_a, exec_drip s.shuffle,
      by rw [exec_drip, State.emitDrip_of_pos h]⟩

end Sys2Proof.Machine
end

section
/-! SUPPORT. What P_READBACK changes (44_readback R192): in the decoder the words of the two readback opcodes alone, and in the
engine the two readback commands alone, for no other command reads a build parameter. -/

namespace Sys2Proof

/-! ### The decoder -/

/-- The row of R74 that an opcode finds is a row of that opcode. -/
theorem rowOf_opc {o : Byte} {row : OpcodeRow} (h : rowOf o = some row) : row.opc = o := by
  have hfound : (row.opc == o) = true := List.find?_some (p := fun r : OpcodeRow => r.opc == o) h
  exact eq_of_beq hfound

/-- Both readback opcodes have a row in R74. -/
theorem exists_rowOf_of_isReadback {o : Byte} (h : isReadback o = true) : ∃ row, rowOf o = some row := by
  have ho : o = 0x40#8 ∨ o = 0x41#8 := by simpa [isReadback] using h
  rcases ho with rfl | rfl
  · exact ⟨_, rfl⟩
  · exact ⟨_, rfl⟩

/-- Without P_READBACK the test of the readback opcodes comes before every other test of their words (R75, R233). -/
theorem decode_false_of_isReadback {w : Word} (h : isReadback (Word.opc w) = true) :
    decode false w = .error .readbackDisabled := by
  obtain ⟨row, hrow⟩ := exists_rowOf_of_isReadback h
  have hopc : isReadback row.opc = true := by rwa [rowOf_opc hrow]
  simp [decode, hrow, hopc]

/-- Of every other word the decoder asks nothing that depends on P_READBACK. -/
theorem decode_eq_of_not_isReadback {w : Word} (h : isReadback (Word.opc w) = false) (b b' : Bool) :
    decode b w = decode b' w := by
  unfold decode
  cases hrow : rowOf (Word.opc w) with
  | none => rfl
  | some row =>
    have hopc : isReadback row.opc = false := by rwa [rowOf_opc hrow]
    simp [hopc]

end Sys2Proof

namespace Sys2Proof.Machine

/-! ### The frame of a command -/

/-- `t` has the ports, the build parameters and STATUS of `s`. -/
structure State.SameSurface (s t : State) : Prop where
  ports : s.SamePorts t
  status : s.SameStatus t

theorem State.SameSurface.trans {s t u : State} (h : s.SameSurface t) (h' : t.SameSurface u) : s.SameSurface u :=
  ⟨h.ports.trans h'.ports, h.status.trans h'.status⟩

theorem State.SameSurface.symm {s t : State} (h : s.SameSurface t) : t.SameSurface s := ⟨h.ports.symm, h.status.symm⟩

theorem State.Scrambled.sameSurface {s t : State} (h : s.Scrambled t) : s.SameSurface t := ⟨h.ports, h.status⟩

theorem State.SameSurface.refl (s : State) : s.SameSurface s := (State.Scrambled.refl s).sameSurface

theorem State.sameSurface_output_emit (s : State) (b : Byte) : s.SameSurface (s.output.emit b) :=
  ⟨⟨rfl, rfl, rfl, rfl, rfl, rfl⟩, rfl, rfl⟩

theorem State.sameSurface_emitDrip (s : State) : s.SameSurface s.emitDrip := by
  obtain ⟨hports, hstatus, -⟩ := s.emitDrip_frame
  exact ⟨hports, hstatus⟩

theorem State.sameSurface_squeeze (s : State) (count : Nat) : s.SameSurface (s.squeeze count) :=
  s.scrambled_drain.sameSurface.trans
    (iterate_related State.SameSurface.refl (fun _ _ _ => State.SameSurface.trans) State.sameSurface_emitDrip count s.drain)

/-- A command that neither starts a session nor reads back leaves the ports and STATUS (R28, R34). -/
theorem exec_sameSurface {i : Instr} {s t : State} (hinit : i ≠ .init)
    (hread : (∀ x, i ≠ .readS x) ∧ ∀ r, i ≠ .readReg r) (h : exec i s = .next t) : s.SameSurface t := by
  cases i with
  | init => exact absurd rfl hinit
  | swap x y => cases h; exact (s.scrambled_swap x y).sameSurface
  | absorbNibble v => cases h; exact (s.scrambled_absorbNibble v).sameSurface
  | absorbByte b =>
    cases h; exact ((s.scrambled_absorbNibble _).trans (State.scrambled_absorbNibble _ _)).sameSurface
  | absorbStop => cases h; exact (s.scrambled_threshold.trans (State.scrambled_setA _ _)).sameSurface
  | update => cases h; exact s.scrambled_update.sameSurface
  | whip => cases h; exact s.scrambled_whip.sameSurface
  | crush => cases h; exact s.scrambled_crush.sameSurface
  | shuffle => cases h; exact s.scrambled_shuffle.sameSurface
  | output => cases h; exact s.sameSurface_output_emit _
  | drip => cases h; exact s.sameSurface_emitDrip
  | squeeze n => cases h; exact s.sameSurface_squeeze _
  | readS x => exact absurd rfl (hread.1 x)
  | readReg r => exact absurd rfl (hread.2 r)

/-! ### The build parameters -/

/-- `s` on an engine built with the parameters `c`. -/
def State.withCfg (s : State) (c : Config) : State := { s with cfg := c }

theorem State.sameEngine_withCfg (s : State) (c : Config) : s.SameEngine (s.withCfg c) := ⟨⟨rfl, rfl, rfl, rfl, rfl⟩, rfl, rfl⟩

/-- Built with other parameters, two states of one surface are so again. -/
theorem State.SameSurface.withCfg {s t : State} (h : s.SameSurface t) (c : Config) :
    (s.withCfg c).SameSurface (t.withCfg c) :=
  ⟨⟨rfl, h.ports.working, h.ports.buffer, h.ports.received, h.ports.offered, h.ports.edges⟩, h.status.err, h.status.errcode⟩

/-- Only the readback commands read a build parameter: every other one does the same under any (R192). -/
theorem exec_withCfg {i : Instr} {s t : State} (hread : (∀ x, i ≠ .readS x) ∧ ∀ r, i ≠ .readReg r)
    (h : exec i s = .next t) (c : Config) : exec i (s.withCfg c) = .next (t.withCfg c) := by
  by_cases hinit : i = .init
  · subst hinit
    cases h
    rfl
  · obtain ⟨u, t', bs, hu, ht', hengine, hpending, hpending'⟩ := exec_congr i (s.sameEngine_withCfg c) (.inr hread)
    obtain rfl : t = u := Host.Outcome.next.inj (h.symm.trans hu)
    have hsurface : (t.withCfg c).SameSurface t' :=
      ((exec_sameSurface hinit hread h).withCfg c).symm.trans (exec_sameSurface hinit hread ht')
    have heq : t' = t.withCfg c :=
      State.eq_of_same (hengine.symm.trans (t.sameEngine_withCfg c)) hsurface.ports hsurface.status
        (hpending'.trans hpending.symm)
    rw [ht', heq]

/-! ### The output -/

/-- Without P_READBACK the commands that emit are OUTPUT, DRIP and SQUEEZE: every other one emits 0 bytes (R86, R192). -/
theorem exec_emits_of_readback_false {i : Instr} {s t : State} (hb : s.cfg.readback = false) (h : exec i s = .next t)
    (hpending : t.pending ≠ s.pending) : i = .output ∨ i = .drip ∨ ∃ n, i = .squeeze n := by
  obtain ⟨bs, ht, hlength⟩ := byteCountIsFixedByTheCommand.2 i s t h
  have hne : bs.length ≠ 0 := fun hzero => hpending (by rw [ht, List.eq_nil_of_length_eq_zero hzero, List.append_nil])
  cases i with
  | output => exact .inl rfl
  | drip => exact .inr (.inl rfl)
  | squeeze n => exact .inr (.inr ⟨n, rfl⟩)
  | readS x => exact absurd hlength (by simpa [hb] using hne)
  | readReg r => exact absurd hlength (by simpa [hb] using hne)
  | _ => exact absurd hlength hne

/-- Settles O43, from the decoder's one test of P_READBACK, the byte counts of the commands, and what reads a build parameter. -/
theorem readbackParameterChangesNoOtherCommand : Obligations.ReadbackParameterChangesNoOtherCommand := by
  unfold Obligations.ReadbackParameterChangesNoOtherCommand
  refine ⟨fun w h => ?rejected, fun i s t hb h hpending => ?bytes, fun b w h40 h41 => ?decoding, fun i s t b hS hreg h => ?effect⟩
  case rejected => exact decode_false_of_isReadback (by simpa [isReadback, Word.opc] using h)
  case bytes => exact exec_emits_of_readback_false hb h hpending
  case decoding => exact decode_eq_of_not_isReadback (by simp [isReadback, Word.opc, h40, h41]) b true
  case effect => exact exec_withCfg ⟨hS, hreg⟩ h { s.cfg with readback := b }

end Sys2Proof.Machine
end

section
/-! SUPPORT. Host sequences (45_host_sequences R200 to R215): the bytes of a session are fixed by its commands (R215), how many they
are is fixed by each command (R86), and decryption subtracts the keystream that encryption added (R214). -/

namespace Sys2Proof

/-- How many bytes a command emits, by P_READBACK (R86). -/
def Instr.byteCount (readback : Bool) : Instr → Nat
  | .output => 1
  | .drip => 1
  | .squeeze n => min n.toNat 256
  | .readS _ => if readback then 1 else 0
  | .readReg r => if readback = true ∧ r ≤ 5#8 then 1 else 0
  | _ => 0

end Sys2Proof

namespace Sys2Proof.Machine

/-! ### One command of a session -/

theorem State.samePorts_reject (s : State) (c : Rejection) : s.SamePorts (s.reject c) :=
  ⟨s.reject_cfg c, s.reject_working c, s.reject_buffer c, s.reject_received c, s.reject_offered c, s.reject_edges c⟩

theorem State.samePorts_emit (s : State) (b : Byte) : s.SamePorts (s.emit b) := ⟨rfl, rfl, rfl, rfl, rfl, rfl⟩

theorem execReadS_samePorts {x : Byte} {s t : State} (h : execReadS x s = .next t) : s.SamePorts t := by
  unfold execReadS at h
  split at h
  · cases h; exact s.samePorts_emit _
  · cases h; exact s.samePorts_reject _

theorem execReadReg_samePorts {r : Byte} {s t : State} (h : execReadReg r s = .next t) : s.SamePorts t := by
  unfold execReadReg at h
  split at h
  · split at h
    · cases h; exact s.samePorts_emit _
    · cases h; exact s.samePorts_reject _
  · cases h; exact s.samePorts_reject _

/-- No command touches the build parameters or the ports (R28). -/
theorem exec_samePorts {i : Instr} {s t : State} (h : exec i s = .next t) : s.SamePorts t := by
  cases i with
  | init => cases h; exact s.samePorts_initializeState_clearErr
  | readS x => exact execReadS_samePorts h
  | readReg r => exact execReadReg_samePorts h
  | _ => exact (exec_sameSurface (by simp) (by simp) h).ports

/-- The bytes a command emits, fixed in number (R86). -/
theorem exec_emitted {i : Instr} {s t : State} (h : exec i s = .next t) : s.Emitted (i.byteCount s.cfg.readback) t := by
  have hcount := byteCountIsFixedByTheCommand.2 i s t h
  cases i <;> exact hcount

/-- When the host has taken a command's bytes, it has them behind those it would have had before (R84). -/
theorem exec_drained_received {i : Instr} {s t : State} {bs : List Byte} (h : exec i s = .next t)
    (hpending : t.pending = s.pending ++ bs) : t.drained.received = s.drained.received ++ bs := by
  have hports := exec_samePorts h
  simp only [State.drained, hports.received, hports.buffer, hpending, List.append_assoc]

@[simp] theorem State.drained_drained (s : State) : s.drained.drained = s.drained := by
  simp [State.drained]

/-! ### The commands of a session, one after another -/

/-- The engines of two sessions hold the same, and their hosts have the same bytes once they have taken all (R267). -/
structure State.SameSession (s t : State) : Prop where
  engine : s.SameEngine t
  received : s.drained.received = t.drained.received

theorem State.SameSession.drained {s t : State} (h : s.SameSession t) : s.drained.SameSession t.drained where
  engine := ⟨⟨h.engine.core.mem, h.engine.core.i, h.engine.core.j, h.engine.core.k, h.engine.core.w⟩, h.engine.a, h.engine.z⟩
  received := by rw [State.drained_drained, State.drained_drained, h.received]

/-- Sessions that are the same before a command are so after it, if it is no readback or P_READBACK is the same (R192, R215). -/
theorem State.SameSession.exec {s t : State} (h : s.SameSession t) (i : Instr)
    (hr : s.cfg.readback = t.cfg.readback ∨ ((∀ x, i ≠ .readS x) ∧ ∀ r, i ≠ .readReg r)) :
    ∃ s' t', Machine.exec i s = .next s' ∧ Machine.exec i t = .next t' ∧ s'.SameSession t' := by
  obtain ⟨s', t', bs, hs, ht, hengine, hspending, htpending⟩ := exec_congr i h.engine hr
  refine ⟨s', t', hs, ht, hengine, ?_⟩
  rw [exec_drained_received hs hspending, exec_drained_received ht htpending, h.received]

/-- A sequence of commands gives the hosts of two same sessions the same bytes (R215). -/
theorem State.SameSession.runSeq {s t : State} (h : s.SameSession t) (is : List Instr)
    (hr : s.cfg.readback = t.cfg.readback ∨ ∀ i ∈ is, (∀ x, i ≠ .readS x) ∧ ∀ r, i ≠ .readReg r) :
    ∃ s' t', Machine.runSeq is s.drained = .next s' ∧ Machine.runSeq is t.drained = .next t' ∧ s'.received = t'.received := by
  induction is generalizing s t with
  | nil => exact ⟨s.drained, t.drained, rfl, rfl, h.received⟩
  | cons i is ih =>
    obtain ⟨u, v, hu, hv, huv⟩ := h.drained.exec i (hr.imp id fun hn => hn i List.mem_cons_self)
    have hucfg : u.cfg = s.cfg := (exec_samePorts hu).cfg
    have hvcfg : v.cfg = t.cfg := (exec_samePorts hv).cfg
    obtain ⟨s', t', hs', ht', hreceived⟩ :=
      ih huv (hr.imp (by rw [hucfg, hvcfg]; exact id) fun hn j hj => hn j (List.mem_cons_of_mem i hj))
    exact ⟨s', t', by simp only [Machine.runSeq, hu, hs'], by simp only [Machine.runSeq, hv, ht'], hreceived⟩

/-- A sequence of commands runs to its end, and the host gets as many bytes as the commands emit (R86, R231). -/
theorem runSeq_received_length (is : List Instr) (s : State) :
    ∃ t, runSeq is s.drained = .next t ∧
      t.received.length = s.drained.received.length + (is.map (Instr.byteCount s.cfg.readback)).sum := by
  induction is generalizing s with
  | nil => exact ⟨s.drained, rfl, rfl⟩
  | cons i is ih =>
    obtain ⟨u, -, -, hu, -⟩ := exec_congr i (State.SameEngine.refl s.drained) (.inl rfl)
    obtain ⟨bs, hpending, hlength⟩ := exec_emitted hu
    obtain ⟨t, ht, hreceived⟩ := ih u
    have hcfg : u.cfg = s.cfg := (exec_samePorts hu).cfg
    have hbytes : bs.length = i.byteCount s.cfg.readback := hlength
    refine ⟨t, by simp only [runSeq, hu, ht], ?_⟩
    rw [hreceived, exec_drained_received hu hpending, State.drained_drained, List.length_append, hbytes, hcfg, List.map_cons,
      List.sum_cons, Nat.add_assoc]

/-! ### The bytes of a session -/

/-- The state from which a session's bytes are counted: the engine's earlier output has been taken (log entry 10). -/
def State.sessionStart (s : State) : State := { s with received := [], buffer := [], pending := [] }

theorem sessionBytes_of_runSeq {is : List Instr} {s t : State} (h : runSeq is s.sessionStart.drained = .next t) :
    sessionBytes is s = some t.received := by
  have hstart : runSeq is { s with received := [], buffer := [], pending := [] } = .next t := h
  rw [sessionBytes, hstart]

/-- A session gives as many bytes as its commands emit (R86). -/
theorem sessionBytes_length (is : List Instr) (s : State) :
    ∃ bs, sessionBytes is s = some bs ∧ bs.length = (is.map (Instr.byteCount s.cfg.readback)).sum := by
  obtain ⟨t, ht, hlength⟩ := runSeq_received_length is s.sessionStart
  exact ⟨t.received, sessionBytes_of_runSeq ht, hlength.trans (Nat.zero_add _)⟩

/-- INIT makes any two sessions at their start the same (R102). -/
theorem State.sameSession_init (s s' : State) :
    s.sessionStart.initializeState.clearErr.SameSession s'.sessionStart.initializeState.clearErr :=
  ⟨⟨⟨rfl, rfl, rfl, rfl, rfl⟩, rfl, rfl⟩, rfl⟩

/-- A session that begins with INIT gives the same bytes from any two states, if it reads nothing back or P_READBACK is the same
(R192, R215). -/
theorem sessionBytes_init_congr (is : List Instr) (s s' : State)
    (hr : s.cfg.readback = s'.cfg.readback ∨ ∀ i ∈ is, (∀ x, i ≠ .readS x) ∧ ∀ r, i ≠ .readReg r) :
    ∃ bs, sessionBytes (.init :: is) s = some bs ∧ sessionBytes (.init :: is) s' = some bs := by
  obtain ⟨t, t', ht, ht', hreceived⟩ := (s.sameSession_init s').runSeq is hr
  exact ⟨t.received, sessionBytes_of_runSeq ht, by rw [hreceived]; exact sessionBytes_of_runSeq ht'⟩

/-- Settles O47, from what INIT makes the same and every command keeps so. -/
theorem sessionBytesDependOnNoEarlierState : Obligations.SessionBytesDependOnNoEarlierState := by
  unfold Obligations.SessionBytesDependOnNoEarlierState
  exact fun is s s' h => sessionBytes_init_congr is s s' (.inl h)

/-! ### The keystream -/

/-- A list of absorbing commands: what follows INIT in the set-up of a keystream (R201, R202, R205). -/
def AbsorbsOnly (is : List Instr) : Prop := ∀ i ∈ is, i = .absorbStop ∨ ∃ b, i = .absorbByte b

theorem absorbsOnly_absorbSeq (m : List Byte) : AbsorbsOnly (absorbSeq m) := by
  intro i hi
  obtain ⟨b, -, rfl⟩ := List.mem_map.mp hi
  exact .inr ⟨b, rfl⟩

/-- Key and IV with the stop between them (R205). -/
theorem absorbsOnly_key_stop_iv (key iv : List Byte) : AbsorbsOnly (absorbSeq key ++ .absorbStop :: absorbSeq iv) := by
  intro i hi
  rcases List.mem_append.mp hi with hkey | hrest
  · exact absorbsOnly_absorbSeq key i hkey
  · rcases List.mem_cons.mp hrest with rfl | hiv
    · exact .inl rfl
    · exact absorbsOnly_absorbSeq iv i hiv

/-- Absorbing commands and DRIPs read nothing back. -/
theorem AbsorbsOnly.keystreamSeq_reads_nothing_back {setup : List Instr} (h : AbsorbsOnly setup) (n : Nat) :
    ∀ i ∈ keystreamSeq setup n, (∀ x, i ≠ .readS x) ∧ ∀ r, i ≠ .readReg r := by
  intro i hi
  rcases List.mem_append.mp hi with hsetup | hdrip
  · rcases h i hsetup with rfl | ⟨b, rfl⟩ <;> simp
  · rw [List.eq_of_mem_replicate hdrip]
    simp

/-- Absorbing commands emit nothing, and each DRIP one byte (R86). -/
theorem AbsorbsOnly.keystreamSeq_byteCount {setup : List Instr} (h : AbsorbsOnly setup) (readback : Bool) (n : Nat) :
    ((keystreamSeq setup n).map (Instr.byteCount readback)).sum = n := by
  have hsetup : (setup.map (Instr.byteCount readback)).sum = 0 := by
    refine List.sum_eq_zero fun k hk => ?_
    obtain ⟨i, hi, rfl⟩ := List.mem_map.mp hk
    rcases h i hi with rfl | ⟨b, rfl⟩ <;> rfl
  simp [keystreamSeq, hsetup, Instr.byteCount]

/-- A set-up gives the same keystream on engines in any two states, a byte for each data element (R203 to R206, R215). -/
theorem AbsorbsOnly.exists_keystream {setup : List Instr} (h : AbsorbsOnly setup) (n : Nat) (s s' : State) :
    ∃ ks, ks.length = n ∧ sessionBytes (keystreamSeq (.init :: setup) n) s = some ks ∧
      sessionBytes (keystreamSeq (.init :: setup) n) s' = some ks := by
  obtain ⟨ks, hks, hks'⟩ := sessionBytes_init_congr (keystreamSeq setup n) s s' (.inr (h.keystreamSeq_reads_nothing_back n))
  obtain ⟨bs, hbs, hlength⟩ := sessionBytes_length (.init :: keystreamSeq setup n) s
  obtain rfl : ks = bs := Option.some.inj (hks.symm.trans hbs)
  have hinit : Instr.init.byteCount s.cfg.readback = 0 := rfl
  exact ⟨ks, by rw [hlength, List.map_cons, List.sum_cons, hinit, h.keystreamSeq_byteCount, Nat.zero_add], hks, hks'⟩

/-! ### The host's arithmetic -/

theorem addKeystream_length {data ks : List Byte} (h : ks.length = data.length) :
    (addKeystream data ks).length = data.length := by
  rw [addKeystream, List.length_zipWith, h, Nat.min_self]

/-- ((p + ks) - ks) mod 256 is p, byte by byte (R214). -/
theorem subKeystream_addKeystream {data ks : List Byte} (h : ks.length = data.length) :
    subKeystream (addKeystream data ks) ks = data := by
  refine List.ext_getElem ?_ fun v _ _ => ?_
  · rw [subKeystream, List.length_zipWith, addKeystream_length h, h, Nat.min_self]
  · simp only [subKeystream, addKeystream, List.getElem_zipWith, BitVec.add_sub_cancel]

/-- What one engine's keystream adds to the data, another's of the same set-up takes away (R214). -/
theorem AbsorbsOnly.keystream_round_trip {setup : List Instr} (h : AbsorbsOnly setup) (data : List Byte) (s s' : State) :
    ∃ c, (sessionBytes (keystreamSeq (.init :: setup) data.length) s).map (addKeystream data) = some c ∧
      c.length = data.length ∧
      (sessionBytes (keystreamSeq (.init :: setup) c.length) s').map (subKeystream c) = some data := by
  obtain ⟨ks, hlength, hks, hks'⟩ := h.exists_keystream data.length s s'
  have hc := addKeystream_length hlength
  refine ⟨addKeystream data ks, by rw [hks, Option.map_some], hc, ?_⟩
  rw [hc, hks', Option.map_some, subKeystream_addKeystream hlength]

/-- Settles O48, from the round trip under a set-up of the key alone and of key, stop and IV. -/
theorem decryptUndoesEncrypt : Obligations.DecryptUndoesEncrypt := by
  unfold Obligations.DecryptUndoesEncrypt
  intro data key iv s s'
  exact ⟨(absorbsOnly_absorbSeq key).keystream_round_trip data s s',
    (absorbsOnly_key_stop_iv key iv).keystream_round_trip data s s'⟩

end Sys2Proof.Machine
end

section
/-! SUPPORT. Rejection (60_exceptions R230 to R235): the edge at which a word is transferred and rejected is `consumeWord`, then
`reject`, and `reject` writes STATUS alone. -/

namespace Sys2Proof.Machine

/-! ### What `reject` leaves unchanged, and what it records -/

@[simp] theorem State.reject_busy (s : State) (c : Rejection) : (s.reject c).busy = s.busy := by
  simp only [State.busy, State.reject_working, State.reject_buffer, State.reject_pending]

/-- The first cause is kept (R35). -/
theorem State.reject_of_err {s : State} (h : s.err = true) (c : Rejection) : s.reject c = s := if_pos h

theorem State.reject_errcode_of_not_err {s : State} (h : s.err = false) (c : Rejection) :
    (s.reject c).errcode = rejectionCode c := by
  rcases s.reject_cases c with ⟨herr, -⟩ | ⟨-, hreject⟩
  · exact absurd (h.symm.trans herr) Bool.false_ne_true
  · rw [hreject]

/-! ### The edge of a rejected word -/

theorem State.sameRegisters_consumeWord_reject (s : State) (c : Rejection) : s.SameRegisters (s.consumeWord.reject c) :=
  ⟨State.reject_a _ c, ⟨State.reject_i _ c, State.reject_j _ c, State.reject_k _ c⟩, State.reject_w _ c, State.reject_z _ c⟩

@[simp] theorem State.consumeWord_busy (s : State) : s.consumeWord.busy = s.busy := rfl

/-- A ready engine is transferred the first word a host offers (R82). -/
theorem portEvent_of_transferred {s : State} {w : Word} {ws : List Word} (hrst : s.edge.rst = false)
    (hvalid : s.edge.cmdValid = true) (hbusy : s.busy = false) (hoffered : s.offered = w :: ws) :
    portEvent s = .command w := by
  simp [portEvent, hrst, hvalid, hbusy, hoffered]

/-- A transferred word that does not decode is consumed and rejected (R75, R232). -/
theorem step_of_rejected {s : State} {w : Word} {c : Rejection} (hevent : portEvent s = .command w)
    (hdecode : decode s.cfg.readback w = .error c) : step s = .next (s.consumeWord.reject c) := by
  simp only [step, hevent, hdecode]

/-- Settles O7, from the step of a rejected word and the frames of `consumeWord` and `reject`. -/
theorem rejectedWordChangesOnlyStatus : Obligations.RejectedWordChangesOnlyStatus := by
  unfold Obligations.RejectedWordChangesOnlyStatus
  intro s w ws c hrst hvalid hbusy hoffered hdecode
  have hstep := step_of_rejected (portEvent_of_transferred hrst hvalid hbusy hoffered) hdecode
  have hports := s.consumeWord.samePorts_reject c
  have hwords : s.consumeWord.offered = ws := by rw [State.consumeWord_offered, hoffered, List.tail_cons]
  refine ⟨s.consumeWord.reject c, hstep, s.consumeWord.reject_mem c, s.sameRegisters_consumeWord_reject c, hports.buffer,
    s.consumeWord.reject_pending c, hports.received, hports.offered.trans hwords, hports.cfg, ?idle,
    fun herr => ?kept, fun herr => ⟨s.consumeWord.reject_err c, ?code⟩⟩
  case idle => rw [State.reject_busy, State.consumeWord_busy, hbusy]
  case kept =>
    rw [State.reject_of_err (s.consumeWord_err.trans herr)]
    exact ⟨s.consumeWord_err, s.consumeWord_errcode⟩
  case code =>
    rw [State.reject_errcode_of_not_err (s.consumeWord_err.trans herr)]
    cases c <;> rfl

end Sys2Proof.Machine
end

section
/-! SUPPORT. Reset (70_reset_and_hazards R260, R261): what a reset edge does to any state, and, byte by byte, the edges at which a
host takes the first of a running command's bytes before it. -/

namespace Sys2Proof.Machine

/-! ### The reset edge -/

/-- An edge with `rst` = 1 is a reset, whatever is running or offered (R260, R261). -/
theorem step_of_rst {s : State} (h : s.edge.rst = true) : step s = .next s.resetEdge := by
  simp only [step, portEvent, if_pos h]

/-- Settles O11, from the step of a reset edge and the table that reset leaves. -/
theorem resetEdgeGivesTheResetState : Obligations.ResetEdgeGivesTheResetState := by
  unfold Obligations.ResetEdgeGivesTheResetState
  intro s hrst
  have hready : s.cmdReady = false := by simp [State.cmdReady, hrst]
  have hvalid : s.outValid = false := by simp [State.outValid, hrst]
  exact ⟨hready, hvalid, s.resetEdge, step_of_rst hrst, State.resetWith_S s.cfg, rfl, rfl, rfl, rfl, rfl, rfl, rfl, rfl, rfl, rfl,
    rfl, rfl, rfl, rfl⟩

/-! ### Edges before a reset that move one byte each -/

/-- The engine stalls, and the host takes the byte that the buffer presents (R84). -/
def Edge.takingByte : Edge := { Edge.plain with stall := true }

/-- The host is not ready, and the engine puts its next byte into the buffer (R84). -/
def Edge.emittingByte : Edge := { Edge.plain with outReady := false }

/-- The coming edge alone says which event it brings to a running command (R82). -/
theorem step_running_of_edge {s : State} {e : Edge} (hrst : e.rst = false) (hbusy : s.busy = true) (es : List Edge) :
    step { s with edges := e :: es } = .next { s with edges := e :: es }.busyEdge := by
  have hevent : portEvent { s with edges := e :: es } = .busy := by
    simp [portEvent, State.edge, hrst, show State.busy { s with edges := e :: es } = true from hbusy]
  simp only [step, hevent]

theorem step_takingByte {s : State} {b : Byte} {bs : List Byte} (h : s.buffer = b :: bs) (es : List Edge) :
    step { s with edges := Edge.takingByte :: es } =
      .next { s with received := s.received ++ [b], buffer := bs, edges := es } := by
  rw [step_running_of_edge rfl (by simp [State.busy, h])]
  simp [State.busyEdge, State.edge, State.passEdge, State.takeByte, Edge.takingByte, Edge.plain, h]

theorem step_emittingByte {s : State} {b : Byte} {bs : List Byte} (hpending : s.pending = b :: bs)
    (hroom : s.buffer.length < s.cfg.outDepth) (es : List Edge) :
    step { s with edges := Edge.emittingByte :: es } =
      .next { s with working := false, buffer := s.buffer ++ [b], pending := bs, edges := es } := by
  rw [step_running_of_edge rfl (by simp [State.busy, hpending])]
  simp [State.busyEdge, State.edge, State.passEdge, State.emitByte, Edge.emittingByte, Edge.plain, hpending, hroom]

/-! ### The bytes that a reset can leave with the host -/

/-- Some edges leave the host with exactly the bytes `r` and the engine in the reset state (R261). -/
def State.CanResetWith (s : State) (r : List Byte) : Prop :=
  ∃ (edges : List Edge) (m : Nat), runEdges m { s with edges := edges } =
    some { State.resetWith s.cfg with received := r, offered := s.offered }

/-- A reset at once leaves the host the bytes it has. -/
theorem State.canResetWith_received (s : State) : s.CanResetWith s.received := by
  refine ⟨[{ Edge.plain with rst := true }], 1, ?_⟩
  simp only [runEdges]
  rw [step_of_rst rfl]
  rfl

/-- What can be left after an edge `e` can be left before it. -/
theorem State.CanResetWith.of_step {s t : State} {e : Edge} {r : List Byte} (h : t.CanResetWith r)
    (hstep : ∀ es, step { s with edges := e :: es } = .next { t with edges := es })
    (hcfg : t.cfg = s.cfg) (hoffered : t.offered = s.offered) : s.CanResetWith r := by
  obtain ⟨edges, m, hrun⟩ := h
  refine ⟨e :: edges, m + 1, ?_⟩
  simp only [runEdges, hstep]
  rw [hrun, hcfg, hoffered]

theorem State.CanResetWith.of_takingByte {s : State} {b : Byte} {bs r : List Byte} (hbuffer : s.buffer = b :: bs)
    (h : { s with received := s.received ++ [b], buffer := bs }.CanResetWith r) : s.CanResetWith r :=
  h.of_step (step_takingByte hbuffer) rfl rfl

theorem State.CanResetWith.of_emittingByte {s : State} {b : Byte} {bs r : List Byte} (hpending : s.pending = b :: bs)
    (hroom : s.buffer.length < s.cfg.outDepth)
    (h : { s with working := false, buffer := s.buffer ++ [b], pending := bs }.CanResetWith r) : s.CanResetWith r :=
  h.of_step (step_emittingByte hpending hroom) rfl rfl

/-- The first `n` of the bytes under way can be left with the host: it takes the next byte from the buffer, into which the engine has
first to put it if the buffer is empty. -/
theorem State.canResetWith_take (s : State) (n : Nat) (hdepth : 1 ≤ s.cfg.outDepth) :
    s.CanResetWith (s.received ++ (s.buffer ++ s.pending).take n) := by
  induction n generalizing s with
  | zero => simpa using s.canResetWith_received
  | succ n ih =>
    cases hbuffer : s.buffer with
    | cons b bs =>
      refine .of_takingByte hbuffer ?_
      simpa using ih { s with received := s.received ++ [b], buffer := bs } hdepth
    | nil =>
      cases hpending : s.pending with
      | nil => simpa using s.canResetWith_received
      | cons b bs =>
        have hroom : s.buffer.length < s.cfg.outDepth := by rw [hbuffer]; exact hdepth
        refine .of_emittingByte hpending hroom (.of_takingByte (b := b) (bs := []) (by simp [hbuffer]) ?_)
        simpa using ih { s with working := false, received := s.received ++ [b], buffer := [], pending := bs } hdepth

/-- Settles O18, from the first bytes that a reset can leave, for any number of them. -/
theorem resetCanLeaveAnyPrefix : Obligations.ResetCanLeaveAnyPrefix := by
  unfold Obligations.ResetCanLeaveAnyPrefix
  intro s n hwf _
  obtain ⟨edges, m, hrun⟩ := s.canResetWith_take n (of_decide_eq_true hwf)
  exact ⟨edges, m, _, hrun, rfl, rfl⟩

end Sys2Proof.Machine
end

section
/-! SUPPORT. The decoder and the encoder (30_encoding R70 to R77): a word is accepted by the row of R74 that it matches, and a
matching word is the word of the command that the row assembles from it. -/

namespace Sys2Proof

/-! ### Words under a mask -/

/-- A bit that a mask keeps, of a word that is 0 under it. -/
theorem getLsbD_of_and_eq_zero {w m : Word} (h : w &&& m = 0#32) {n : Nat} (hm : m.getLsbD n = true) : w.getLsbD n = false := by
  have hn : (w &&& m).getLsbD n = (0#32).getLsbD n := by rw [h]
  simpa [hm] using hn

/-- The opcode is what the mask of bits 31:24 keeps (R71). -/
theorem and_opcodeMask_eq_iff (w : Word) (o : Byte) : w &&& 0xFF000000#32 = o.setWidth 32 <<< 24 ↔ Word.opc w = o := by
  constructor
  · intro h
    have hopc : Word.opc (w &&& 0xFF000000#32) = Word.opc w := by
      unfold Word.opc; ext n hn; interval_cases n <;> simp
    rw [← hopc, h]
    unfold Word.opc; ext n hn; interval_cases n <;> simp
  · rintro rfl
    unfold Word.opc; ext n hn; interval_cases n <;> simp

theorem Format.rsvMask_and_opcodeMask (f : Format) : f.rsvMask &&& 0xFF000000#32 = 0#32 := by cases f <;> rfl

/-- A word matches a row of R74: under the row's mask it is the row's match word. -/
def OpcodeRow.Matches (row : OpcodeRow) (w : Word) : Prop := w &&& row.mask = row.matchWord

theorem OpcodeRow.matchWord_and_opcodeMask (row : OpcodeRow) : row.matchWord &&& 0xFF000000#32 = row.matchWord :=
  (and_opcodeMask_eq_iff _ _).mpr (by unfold Word.opc OpcodeRow.matchWord; ext n hn; interval_cases n <;> simp)

/-- A word that matches a row has the row's opcode and 0 in the must-be-zero bits of its format, and the converse (R72, R74). -/
theorem OpcodeRow.matches_iff (row : OpcodeRow) (w : Word) :
    row.Matches w ↔ Word.opc w = row.opc ∧ w &&& row.format.rsvMask = 0#32 := by
  rw [← and_opcodeMask_eq_iff, Matches, mask, ← matchWord]
  have hdisjoint := row.format.rsvMask_and_opcodeMask
  have hmatch := row.matchWord_and_opcodeMask
  generalize row.format.rsvMask = m at *
  generalize row.matchWord = r at *
  constructor
  · intro h
    have hopc : w &&& 0xFF000000#32 = r := by
      calc w &&& 0xFF000000#32 = (w &&& (0xFF000000#32 ||| m)) &&& 0xFF000000#32 := by grind
        _ = r := by rw [h, hmatch]
    have hrsv : w &&& m = 0#32 := by
      calc w &&& m = (w &&& (0xFF000000#32 ||| m)) &&& m := by grind
        _ = r &&& (m &&& 0xFF000000#32) := by rw [h]; grind
        _ = 0#32 := by rw [hdisjoint, BitVec.and_zero]
    exact ⟨hopc, hrsv⟩
  · rintro ⟨hopc, hrsv⟩
    rw [BitVec.and_or_distrib_left, hopc, hrsv, BitVec.or_zero]

/-! ### Decoding by the rows -/

/-- The opcodes of R74 are distinct, so an opcode finds its row. -/
theorem rowOf_of_mem {row : OpcodeRow} (h : row ∈ opcodeRows) : rowOf row.opc = some row := by
  revert row
  simp [opcodeRows, rowOf]

theorem rowOf_eq_none_iff {o : Byte} : rowOf o = none ↔ ∀ row ∈ opcodeRows, row.opc ≠ o := by
  simp [rowOf]

theorem mem_of_rowOf {o : Byte} {row : OpcodeRow} (h : rowOf o = some row) : row ∈ opcodeRows := List.mem_of_find?_eq_some h

/-- The tests of R75 on a word whose opcode has a row. -/
theorem decode_of_opc_eq {row : OpcodeRow} (hrow : row ∈ opcodeRows) {w : Word} (h : Word.opc w = row.opc) (readback : Bool) :
    decode readback w =
      if isReadback (Word.opc w) && !readback then .error .readbackDisabled
      else if w &&& row.format.rsvMask ≠ 0#32 then .error .reservedNonzero
      else if Word.opc w = 0x41#8 ∧ 5#8 < Word.fieldA w then .error .badRegister
      else .ok (row.assemble w) := by
  rw [decode, h, rowOf_of_mem hrow]

/-- What the decoder still asks of a word that matches a row: P_READBACK for the readback commands, and the register number. -/
theorem decode_of_matches {row : OpcodeRow} (hrow : row ∈ opcodeRows) {w : Word} (h : row.Matches w) (readback : Bool) :
    decode readback w =
      if isReadback (Word.opc w) && !readback then .error .readbackDisabled
      else if Word.opc w = 0x41#8 ∧ 5#8 < Word.fieldA w then .error .badRegister
      else .ok (row.assemble w) := by
  obtain ⟨hopc, hrsv⟩ := (row.matches_iff w).mp h
  simp [decode_of_opc_eq hrow hopc, hrsv]

/-- A word decodes exactly when it matches a row, is no readback command without P_READBACK, and names a register if it is a
READ_REG; the command is then the one that the row assembles (R75). -/
theorem decode_eq_ok_iff {readback : Bool} {w : Word} {i : Instr} :
    decode readback w = .ok i ↔
      (∃ row ∈ opcodeRows, row.Matches w ∧ row.assemble w = i) ∧ (isReadback (Word.opc w) = true → readback = true) ∧
      (Word.opc w = 0x41#8 → Word.fieldA w ≤ 5#8) := by
  constructor
  · intro h
    cases hfind : rowOf (Word.opc w) with
    | none => simp [decode, hfind] at h
    | some row =>
      have hrow := mem_of_rowOf hfind
      have hopc := (rowOf_opc hfind).symm
      rw [decode_of_opc_eq hrow hopc] at h
      split_ifs at h with hread hrsv hreg
      refine ⟨⟨row, hrow, (row.matches_iff w).mpr ⟨hopc, not_not.mp hrsv⟩, Except.ok.inj h⟩, ?_, ?_⟩
      · simpa using hread
      · simpa using hreg
  · rintro ⟨⟨row, hrow, hmatches, rfl⟩, hread, hreg⟩
    rw [decode_of_matches hrow hmatches, if_neg (by simpa using hread), if_neg (by simpa using hreg)]

/-! ### The word of a command -/

/-- The word of every command matches a row, which assembles the command from it (R72 to R74). -/
theorem encode_matches (i : Instr) : ∃ row ∈ opcodeRows, row.Matches (encode i) ∧ row.assemble (encode i) = i := by
  cases i with
  | init => exact Laws.EncodedAsTabled.init
  | swap x y => exact Laws.EncodedAsTabled.swap x y
  | absorbNibble v => exact Laws.EncodedAsTabled.absorbNibble v
  | absorbByte b => exact Laws.EncodedAsTabled.absorbByte b
  | absorbStop => exact Laws.EncodedAsTabled.absorbStop
  | update => exact Laws.EncodedAsTabled.update
  | whip => exact Laws.EncodedAsTabled.whip
  | crush => exact Laws.EncodedAsTabled.crush
  | shuffle => exact Laws.EncodedAsTabled.shuffle
  | output => exact Laws.EncodedAsTabled.output
  | drip => exact Laws.EncodedAsTabled.drip
  | squeeze n => exact Laws.EncodedAsTabled.squeeze n
  | readS x => exact Laws.EncodedAsTabled.readS x
  | readReg r => exact Laws.EncodedAsTabled.readReg r

/-- The opcodes of the readback commands are those of READ_S and READ_REG (R192). -/
theorem isReadback_opc_encode (i : Instr) :
    isReadback (Word.opc (encode i)) = match i with
      | .readS _ => true
      | .readReg _ => true
      | _ => false := by
  cases i <;> simp [encode, Laws.opc_pack, isReadback]

/-- The word of a well-formed command names a register if it is a READ_REG (R191). -/
theorem fieldA_encode_le {i : Instr} (h : i.wf = true) (hopc : Word.opc (encode i) = 0x41#8) : Word.fieldA (encode i) ≤ 5#8 := by
  cases i with
  | readReg r => simpa [encode, Laws.fieldA_pack, Instr.wf] using h
  | _ => simp [encode, Laws.opc_pack] at hopc

/-- The word of a well-formed command decodes to it, except for a readback command without P_READBACK. -/
theorem decode_encode {i : Instr} (h : i.wf = true) {readback : Bool}
    (hread : isReadback (Word.opc (encode i)) = true → readback = true) : decode readback (encode i) = .ok i :=
  decode_eq_ok_iff.mpr ⟨encode_matches i, hread, fieldA_encode_le h⟩

/-- Settles O2: every command's word matches its row, which assembles the command; the word of a readback command is rejected on
an engine without readback before anything else is asked of it. -/
theorem encodedCommandDecodesBack : Obligations.EncodedCommandDecodesBack := by
  unfold Obligations.EncodedCommandDecodesBack
  intro i hwf
  refine ⟨decode_encode hwf fun _ => rfl, ?_⟩
  have hread := isReadback_opc_encode i
  cases i with
  | readS x => exact decode_false_of_isReadback hread
  | readReg r => exact decode_false_of_isReadback hread
  | _ => exact decode_encode hwf (by simp [hread])

/-! ### Every accepted word is the word of its command -/

/-- A word is packed from its fields if its reserved byte is 0 (R71). -/
theorem eq_pack_of_reserved {w : Word} (h : w &&& 0x00FF0000#32 = 0#32) :
    w = pack (Word.opc w) (Word.fieldB w) (Word.fieldA w) := by
  have hbit : ∀ n, (0x00FF0000#32).getLsbD n = true → w.getLsbD n = false := fun _ => getLsbD_of_and_eq_zero h
  unfold pack Word.opc Word.fieldB Word.fieldA
  ext n hn; interval_cases n <;> simp [← BitVec.getLsbD_eq_getElem, hbit]

/-- B is 0 in a word whose bits 15:8 must be 0. -/
theorem fieldB_eq_zero {w : Word} (h : w &&& 0x0000FF00#32 = 0#32) : Word.fieldB w = 0#8 := by
  have hbit : ∀ n, (0x0000FF00#32).getLsbD n = true → w.getLsbD n = false := fun _ => getLsbD_of_and_eq_zero h
  unfold Word.fieldB
  ext n hn; interval_cases n <;> simp [← BitVec.getLsbD_eq_getElem, hbit]

/-- A is 0 in a word whose bits 7:0 must be 0. -/
theorem fieldA_eq_zero {w : Word} (h : w &&& 0x000000FF#32 = 0#32) : Word.fieldA w = 0#8 := by
  have hbit : ∀ n, (0x000000FF#32).getLsbD n = true → w.getLsbD n = false := fun _ => getLsbD_of_and_eq_zero h
  unfold Word.fieldA
  ext n hn; interval_cases n <;> simp [← BitVec.getLsbD_eq_getElem, hbit]

/-- The nibble operand is all of A in a word whose bits 7:4 must be 0. -/
theorem setWidth_fieldV_eq_fieldA {w : Word} (h : w &&& 0x000000F0#32 = 0#32) : (Word.fieldV w).setWidth 8 = Word.fieldA w := by
  have hbit : ∀ n, (0x000000F0#32).getLsbD n = true → w.getLsbD n = false := fun _ => getLsbD_of_and_eq_zero h
  unfold Word.fieldA Word.fieldV
  ext n hn; interval_cases n <;> simp [← BitVec.getLsbD_eq_getElem, hbit]

/-- The length operand is B above A (R71). -/
theorem fieldL_high (w : Word) : (Word.fieldL w).extractLsb' 8 8 = Word.fieldB w := by
  unfold Word.fieldB Word.fieldL
  ext n hn; interval_cases n <;> simp

theorem fieldL_low (w : Word) : (Word.fieldL w).extractLsb' 0 8 = Word.fieldA w := by
  unfold Word.fieldA Word.fieldL
  ext n hn; interval_cases n <;> simp

/-- What is 0 under a mask is 0 under every mask within it. -/
theorem and_eq_zero_of_subMask {w m : Word} (h : w &&& m = 0#32) {k : Word} (hk : k &&& m = k) : w &&& k = 0#32 := by
  rw [← hk, BitVec.and_comm k, ← BitVec.and_assoc, h, BitVec.zero_and]

/-- Encoding what a row assembles from a matching word gives the word back (R72, R73): what the row's format does not copy from the
word into an operand is the opcode, or 0. -/
theorem encode_assemble {row : OpcodeRow} (hrow : row ∈ opcodeRows) {w : Word} (h : row.Matches w) :
    encode (row.assemble w) = w := by
  obtain ⟨hopc, hrsv⟩ := (row.matches_iff w).mp h
  have hreserved : row.format.rsvMask &&& 0x00FF0000#32 = 0x00FF0000#32 := by cases row.format <;> rfl
  have hpack : w = pack row.opc (Word.fieldB w) (Word.fieldA w) := by
    rw [← hopc]
    exact eq_pack_of_reserved (and_eq_zero_of_subMask hrsv (by rw [BitVec.and_comm, hreserved]))
  have hB : 0x0000FF00#32 &&& row.format.rsvMask = 0x0000FF00#32 → Word.fieldB w = 0#8 := fun hk =>
    fieldB_eq_zero (and_eq_zero_of_subMask hrsv hk)
  have hA : 0x000000FF#32 &&& row.format.rsvMask = 0x000000FF#32 → Word.fieldA w = 0#8 := fun hk =>
    fieldA_eq_zero (and_eq_zero_of_subMask hrsv hk)
  have hV : 0x000000F0#32 &&& row.format.rsvMask = 0x000000F0#32 → (Word.fieldV w).setWidth 8 = Word.fieldA w := fun hk =>
    setWidth_fieldV_eq_fieldA (and_eq_zero_of_subMask hrsv hk)
  conv_rhs => rw [hpack]
  clear hpack hopc hrsv hreserved h
  revert row
  simp +contextual [opcodeRows, encode, Format.rsvMask, fieldL_high, fieldL_low]

/-- Only the row of READ_REG assembles a command that may not be well-formed (R191). -/
theorem wf_assemble {row : OpcodeRow} (hrow : row ∈ opcodeRows) {w : Word} (h : row.opc = 0x41#8 → Word.fieldA w ≤ 5#8) :
    (row.assemble w).wf = true := by
  revert row
  simp [opcodeRows, Instr.wf]

theorem encode_of_decode {readback : Bool} {w : Word} {i : Instr} (h : decode readback w = .ok i) : encode i = w := by
  obtain ⟨⟨row, hrow, hmatches, rfl⟩, -, -⟩ := decode_eq_ok_iff.mp h
  exact encode_assemble hrow hmatches

theorem wf_of_decode {readback : Bool} {w : Word} {i : Instr} (h : decode readback w = .ok i) : i.wf = true := by
  obtain ⟨⟨row, hrow, hmatches, rfl⟩, -, hreg⟩ := decode_eq_ok_iff.mp h
  exact wf_assemble hrow fun hopc => hreg (((row.matches_iff w).mp hmatches).1.trans hopc)

/-- Settles O3: the word matches the row that assembles the command, and a matching word is packed from its opcode and operands. -/
theorem decodedWordIsItsEncoding : Obligations.DecodedWordIsItsEncoding := by
  unfold Obligations.DecodedWordIsItsEncoding
  exact fun readback w i h => ⟨wf_of_decode h, encode_of_decode h⟩

/-! ### The opcode map and the causes, as the statements write them out -/

/-- The match words and masks of R74. -/
theorem matchWord_mask_opcodeRows : opcodeRows.map (fun row => (row.matchWord, row.mask)) =
    [(0x01000000#32, 0xFFFFFFFF#32), (0x02000000#32, 0xFFFF0000#32), (0x10000000#32, 0xFFFFFFF0#32),
      (0x11000000#32, 0xFFFFFF00#32), (0x12000000#32, 0xFFFFFFFF#32), (0x20000000#32, 0xFFFFFFFF#32),
      (0x21000000#32, 0xFFFFFFFF#32), (0x22000000#32, 0xFFFFFFFF#32), (0x23000000#32, 0xFFFFFFFF#32),
      (0x30000000#32, 0xFFFFFFFF#32), (0x31000000#32, 0xFFFFFFFF#32), (0x32000000#32, 0xFFFF0000#32),
      (0x40000000#32, 0xFFFFFF00#32), (0x41000000#32, 0xFFFFFF00#32)] := by
  decide

theorem fieldA_le_iff (w : Word) : Word.fieldA w ≤ 5#8 ↔ w &&& 0x000000FF#32 ≤ 5#32 := by
  have hA : (Word.fieldA w).toNat = w.toNat % 256 := by simp [Word.fieldA]
  have hand : (w &&& 0x000000FF#32).toNat = w.toNat % 256 := by
    rw [BitVec.toNat_and]
    exact Nat.and_two_pow_sub_one_eq_mod w.toNat 8
  rw [BitVec.le_def, BitVec.le_def, hA, hand]
  rfl

/-- Settles O4: with readback, what is asked beside the row is the register number alone. -/
theorem acceptedWordsMatchTheOpcodeMap : Obligations.AcceptedWordsMatchTheOpcodeMap := by
  unfold Obligations.AcceptedWordsMatchTheOpcodeMap
  intro w
  have hopc : w &&& 0xFF000000#32 = 0x41000000#32 ↔ Word.opc w = 0x41#8 := and_opcodeMask_eq_iff w 0x41#8
  have hrows : (∃ i, ∃ row ∈ opcodeRows, row.Matches w ∧ row.assemble w = i) ↔
      ∃ p ∈ opcodeRows.map (fun row => (row.matchWord, row.mask)), w &&& p.2 = p.1 := by
    simp [OpcodeRow.Matches]
  simp only [decode_eq_ok_iff, exists_and_right, hrows, matchWord_mask_opcodeRows, hopc, fieldA_le_iff, imp_true_iff, true_and]

/-- The opcodes and must-be-zero masks of R74 and R72. -/
theorem opc_rsvMask_opcodeRows : opcodeRows.map (fun row => (row.opc, row.format.rsvMask)) =
    [(0x01#8, 0x00FFFFFF#32), (0x02#8, 0x00FF0000#32), (0x10#8, 0x00FFFFF0#32), (0x11#8, 0x00FFFF00#32),
      (0x12#8, 0x00FFFFFF#32), (0x20#8, 0x00FFFFFF#32), (0x21#8, 0x00FFFFFF#32), (0x22#8, 0x00FFFFFF#32),
      (0x23#8, 0x00FFFFFF#32), (0x30#8, 0x00FFFFFF#32), (0x31#8, 0x00FFFFFF#32), (0x32#8, 0x00FF0000#32),
      (0x40#8, 0x00FFFF00#32), (0x41#8, 0x00FFFF00#32)] := by
  decide

theorem decode_of_not_row {w : Word} (h : ∀ row ∈ opcodeRows, row.opc ≠ Word.opc w) (readback : Bool) :
    decode readback w = .error .badOpcode := by
  rw [decode, rowOf_eq_none_iff.mpr h]

/-- Settles O5: the statement's opcodes and masks are those of the rows, and the order of its causes is that of the tests of
`decode_of_opc_eq`. -/
theorem rejectionCauseFollowsThePriority : Obligations.RejectionCauseFollowsThePriority := by
  unfold Obligations.RejectionCauseFollowsThePriority
  rw [← opc_rsvMask_opcodeRows]
  intro masks readback w opc
  have hopc : Word.opc w = opc := rfl
  refine ⟨fun h => decode_of_not_row (fun row hrow => h _ (List.mem_map_of_mem hrow)) readback, fun p hp hpopc => ?_⟩
  obtain ⟨row, hrow, rfl⟩ := List.mem_map.mp hp
  have hdecode : decode readback w =
      if (opc = 0x40#8 ∨ opc = 0x41#8) ∧ readback = false then .error .readbackDisabled
      else if w &&& row.format.rsvMask ≠ 0#32 then .error .reservedNonzero
      else if opc = 0x41#8 ∧ 5#8 < Word.fieldA w then .error .badRegister
      else .ok (row.assemble w) := by
    simpa [isReadback, hopc] using decode_of_opc_eq hrow (hopc.trans hpopc.symm) readback
  have hA : Word.fieldA w = w.extractLsb' 0 8 := rfl
  rw [hdecode, hA]
  split_ifs
  · rfl
  · rfl
  · rfl
  · exact ⟨row.assemble w, rfl⟩

/-- Settles O1, by evaluating the decoder on each of the words and the opcode map on each of the 256 opcodes. -/
theorem tabledWordsDecode : Obligations.TabledWordsDecode := by
  unfold Obligations.TabledWordsDecode
  refine ⟨rfl, rfl, rfl, rfl, rfl, rfl, rfl, rfl, rfl, rfl, rfl, rfl, rfl, rfl, rfl, rfl, rfl, rfl, rfl, ?illegal⟩
  case illegal => decide +kernel

end Sys2Proof
end

section
/-! SUPPORT. The machine's invariant (10_state R22, R23, R29, R30, R35; 30_encoding R84, R86): each of its parts holds at every start
and is kept by every step, and every step and command has a next state. -/

namespace Sys2Proof.Machine

/-! ### Every command and every step has a next state -/

theorem exists_exec_eq_next (i : Instr) (s : State) : ∃ t, exec i s = .next t := by
  by_cases hi : i = .init
  · exact ⟨s.initializeState.clearErr, by rw [hi, exec_init]⟩
  · obtain ⟨t, ht, -⟩ := exec_evolved hi s
    exact ⟨t, ht⟩

theorem exists_step_eq_next (s : State) : ∃ t, step s = .next t := by
  unfold step
  split
  · exact ⟨_, rfl⟩
  · exact ⟨_, rfl⟩
  · exact ⟨_, rfl⟩
  · split
    · exact ⟨_, rfl⟩
    · exact exists_exec_eq_next _ _

/-- Settles O15, from the next state of every command. -/
theorem nothingStopsTheMachine : Obligations.NothingStopsTheMachine := by
  unfold Obligations.NothingStopsTheMachine
  exact ⟨exists_exec_eq_next, exists_step_eq_next⟩

/-- Settles O22: a command other than INIT is an evolution, which permutes the entries. -/
theorem commandsOnlyPermuteTheTable : Obligations.CommandsOnlyPermuteTheTable := by
  unfold Obligations.CommandsOnlyPermuteTheTable
  intro i s t hi h
  rcases exec_cases h with ⟨hinit, -⟩ | ⟨-, hevolved⟩
  · exact absurd hinit hi
  · exact hevolved.table

/-! ### The canonical form of the memory (log entry 5) -/

theorem State.wf_threshold {s : State} (h : s.mem.wf = true) : s.threshold.mem.wf = true := by
  unfold State.threshold
  split
  · exact State.wf_shuffle h
  · exact h

theorem State.wf_drain {s : State} (h : s.mem.wf = true) : s.drain.mem.wf = true := by
  unfold State.drain
  split
  · exact State.wf_shuffle h
  · exact h

theorem State.wf_absorbNibble {s : State} (h : s.mem.wf = true) (v : Nibble) : (s.absorbNibble v).mem.wf = true :=
  State.wf_swap (State.wf_threshold h) _ _

theorem State.wf_emitDrip {s : State} (h : s.mem.wf = true) : s.emitDrip.mem.wf = true := State.wf_update (State.wf_drain h)

theorem State.wf_squeeze {s : State} (h : s.mem.wf = true) (count : Nat) : (s.squeeze count).mem.wf = true :=
  iterate_related (R := fun s t => s.mem.wf = true → t.mem.wf = true) (fun _ h => h) (fun _ _ _ f g h => g (f h))
    (fun _ h => State.wf_emitDrip h) count s.drain (State.wf_drain h)

/-! ### READ_S and READ_REG -/

theorem exec_readS_of_readback {s : State} (h : s.cfg.readback = true) (x : Byte) :
    exec (.readS x) s = .next (s.emit (s.S x)) := by
  simp [exec, execReadS, h]

theorem exec_readReg_of_some {s : State} (h : s.cfg.readback = true) {r : Byte} {n : RegName} (hn : regOfNumber r = some n) :
    exec (.readReg r) s = .next (s.emit (s.reg n)) := by
  simp [exec, execReadReg, h, hn]

/-- A number that is no register's is BAD_REGISTER (R191). -/
theorem exec_readReg_of_none {s : State} (h : s.cfg.readback = true) {r : Byte} (hn : regOfNumber r = none) :
    exec (.readReg r) s = .next (s.reject .badRegister) := by
  simp [exec, execReadReg, h, hn]

/-- Without P_READBACK the meanings of both reject (R192, log entry 8). -/
theorem exec_readS_of_not_readback {s : State} (h : s.cfg.readback = false) (x : Byte) :
    exec (.readS x) s = .next (s.reject .readbackDisabled) := by
  simp [exec, execReadS, h]

theorem exec_readReg_of_not_readback {s : State} (h : s.cfg.readback = false) (r : Byte) :
    exec (.readReg r) s = .next (s.reject .readbackDisabled) := by
  simp [exec, execReadReg, h]

/-- `t` answers a readback command at `s`: a byte is emitted, or the command is rejected. -/
def State.Answered (s t : State) : Prop := (∃ b, t = s.emit b) ∨ ∃ c, t = s.reject c

theorem exec_readS_answered {x : Byte} {s t : State} (h : exec (.readS x) s = .next t) : s.Answered t := by
  cases hb : s.cfg.readback with
  | true => rw [exec_readS_of_readback hb] at h; cases h; exact .inl ⟨_, rfl⟩
  | false => rw [exec_readS_of_not_readback hb] at h; cases h; exact .inr ⟨_, rfl⟩

theorem exec_readReg_answered {r : Byte} {s t : State} (h : exec (.readReg r) s = .next t) : s.Answered t := by
  cases hb : s.cfg.readback with
  | true =>
    cases hn : regOfNumber r with
    | some n => rw [exec_readReg_of_some hb hn] at h; cases h; exact .inl ⟨_, rfl⟩
    | none => rw [exec_readReg_of_none hb hn] at h; cases h; exact .inr ⟨_, rfl⟩
  | false => rw [exec_readReg_of_not_readback hb] at h; cases h; exact .inr ⟨_, rfl⟩

/-- A readback command writes no table entry and no register, whether it emits or is rejected (R28, R230). -/
theorem State.Answered.mem_registers {s t : State} (h : s.Answered t) : t.mem = s.mem ∧ s.SameRegisters t := by
  rcases h with ⟨b, rfl⟩ | ⟨c, rfl⟩
  · exact ⟨rfl, rfl, ⟨rfl, rfl, rfl⟩, rfl, rfl⟩
  · exact ⟨s.reject_mem c, s.reject_a c, ⟨s.reject_i c, s.reject_j c, s.reject_k c⟩, s.reject_w c, s.reject_z c⟩

theorem State.Answered.surface {s t : State} (h : s.Answered t) : s.SameSurface t ∨ ∃ c, t = s.reject c := by
  rcases h with ⟨b, rfl⟩ | hreject
  · exact .inl ⟨s.samePorts_emit b, rfl, rfl⟩
  · exact .inr hreject

/-! ### What every command keeps -/

theorem exec_keeps_wf {i : Instr} {s t : State} (h : exec i s = .next t) (hs : s.mem.wf = true) : t.mem.wf = true := by
  cases i with
  | init => cases h; rfl
  | swap x y => cases h; exact State.wf_swap hs x y
  | absorbNibble v => cases h; exact State.wf_absorbNibble hs v
  | absorbByte b => cases h; exact State.wf_absorbNibble (State.wf_absorbNibble hs _) _
  | absorbStop => cases h; exact State.wf_threshold hs
  | update => cases h; exact State.wf_update hs
  | whip => cases h; exact State.wf_whip hs
  | crush => cases h; exact State.wf_crush hs
  | shuffle => cases h; exact State.wf_shuffle hs
  | output => cases h; exact hs
  | drip => cases h; exact State.wf_emitDrip hs
  | squeeze n => cases h; exact State.wf_squeeze hs _
  | readS x => rwa [(exec_readS_answered h).mem_registers.1]
  | readReg r => rwa [(exec_readReg_answered h).mem_registers.1]

/-- Everything a command can do to the ports and STATUS: INIT clears the errors, a readback command may be rejected, and every
other command leaves both. -/
theorem exec_surface_cases {i : Instr} {s t : State} (h : exec i s = .next t) :
    (i = .init ∧ t = s.initializeState.clearErr) ∨ s.SameSurface t ∨ ∃ c, t = s.reject c := by
  cases i with
  | init => cases h; exact .inl ⟨rfl, rfl⟩
  | readS x => exact .inr (exec_readS_answered h).surface
  | readReg r => exact .inr (exec_readReg_answered h).surface
  | _ => exact .inr (.inl (exec_sameSurface (by simp) (by simp) h))

/-! ### STATUS (R32, R35) -/

theorem State.SameStatus.statusLegal {s t : State} (h : s.SameStatus t) (hs : s.StatusLegal) : t.StatusLegal := by
  unfold State.StatusLegal
  rw [h.err, h.errcode]
  exact hs

theorem State.statusLegal_of_values {s : State} {e : Bool} {c : BitVec 3} (herr : s.err = e) (hcode : s.errcode = c)
    (hlegal : c ≤ 4#3 ∧ (e = true ↔ c ≠ 0#3)) : s.StatusLegal := by
  unfold State.StatusLegal
  rwa [herr, hcode]

theorem State.StatusLegal.reject {s : State} (hs : s.StatusLegal) (c : Rejection) : (s.reject c).StatusLegal := by
  rcases s.reject_cases c with ⟨-, heq⟩ | ⟨-, heq⟩ <;> rw [heq]
  · exact hs
  · exact State.statusLegal_of_values (e := true) (c := rejectionCode c) rfl rfl (by cases c <;> decide)

theorem exec_keeps_statusLegal {i : Instr} {s t : State} (h : exec i s = .next t) (hs : s.StatusLegal) : t.StatusLegal := by
  rcases exec_surface_cases h with ⟨-, rfl⟩ | hsurface | ⟨c, rfl⟩
  · exact State.statusLegal_of_values (e := false) (c := 0#3) rfl rfl (by decide)
  · exact hsurface.status.statusLegal hs
  · exact hs.reject c

/-! ### The output under way (R84, R86) -/

/-- The output buffer is within P_OUT_DEPTH, and one command's bytes at most are under way. -/
structure State.OutputBounded (s : State) : Prop where
  buffered : s.buffer.length ≤ s.cfg.outDepth
  output : s.buffer.length + s.pending.length ≤ 256

theorem State.OutputBounded.takeByte {s : State} (h : s.OutputBounded) : s.takeByte.OutputBounded := by
  obtain ⟨hbuffered, houtput⟩ := h
  rcases takeByte_cases s with ⟨-, heq⟩ | ⟨b, bs, hb, heq⟩ <;> rw [heq]
  · exact ⟨hbuffered, houtput⟩
  · rw [hb, List.length_cons] at hbuffered houtput
    exact ⟨Nat.le_of_succ_le hbuffered, by dsimp only; omega⟩

theorem State.OutputBounded.emitByte {s : State} (h : s.OutputBounded) : s.emitByte.OutputBounded := by
  obtain ⟨hbuffered, houtput⟩ := h
  rcases emitByte_cases s with ⟨-, heq⟩ | ⟨b, bs, hp, hroom, heq⟩ <;> rw [heq]
  · exact ⟨hbuffered, houtput⟩
  · rw [hp, List.length_cons] at houtput
    constructor <;> simp only [List.length_append, List.length_singleton] <;> omega

/-- What the passing of an edge establishes, and taking a byte, emitting one and ending the work keep, holds after an edge of a
running command. -/
theorem busyEdge_induction {P : State → Prop} {s : State} (hpass : P s.passEdge) (htake : ∀ t, P t → P t.takeByte)
    (hemit : ∀ t, P t → P t.emitByte) (hdone : ∀ t, P t → P { t with working := false }) : P s.busyEdge := by
  unfold State.busyEdge
  have htaken : P (if s.edge.outReady then s.passEdge.takeByte else s.passEdge) := by
    split
    · exact htake _ hpass
    · exact hpass
  dsimp only
  split
  · exact htaken
  · exact hdone _ (hemit _ htaken)

theorem State.OutputBounded.busyEdge {s : State} (h : s.OutputBounded) : s.busyEdge.OutputBounded :=
  busyEdge_induction ⟨h.buffered, h.output⟩ (fun _ => State.OutputBounded.takeByte) (fun _ => State.OutputBounded.emitByte)
    fun _ ht => ⟨ht.buffered, ht.output⟩

theorem State.outputBounded_of_nil {s : State} (hbuffer : s.buffer = []) (hpending : s.pending = []) : s.OutputBounded := by
  constructor <;> simp [hbuffer, hpending]

theorem byteCount_le (i : Instr) (readback : Bool) : i.byteCount readback ≤ 256 := by
  cases i with
  | squeeze n => exact Nat.min_le_right _ _
  | readS x => simp only [Instr.byteCount]; split <;> omega
  | readReg r => simp only [Instr.byteCount]; split <;> omega
  | _ => simp [Instr.byteCount]

/-- No more than one command's bytes are under way after a command that began with none (R58, R86). -/
theorem exec_outputBounded {i : Instr} {s t : State} (h : exec i s = .next t) (hbuffer : s.buffer = [])
    (hpending : s.pending = []) : t.OutputBounded := by
  obtain ⟨bs, ht, hlength⟩ := exec_emitted h
  have hb : t.buffer = [] := (exec_samePorts h).buffer.trans hbuffer
  have hcount := byteCount_le i s.cfg.readback
  constructor
  · simp [hb]
  · simpa [hb, ht, hpending, hlength] using hcount

/-- An engine that is not busy works on nothing and has no byte under way (R33). -/
theorem State.busy_eq_false_iff (s : State) : s.busy = false ↔ s.working = false ∧ s.buffer = [] ∧ s.pending = [] := by
  simp [State.busy, and_assoc]

/-! ### The invariant -/

theorem State.Inv.sound {s : State} (h : s.Inv) : s.Sound := ⟨h.permutation, h.counter, h.stride⟩

theorem State.Inv.outputBounded {s : State} (h : s.Inv) : s.OutputBounded := ⟨h.buffered, h.output⟩

theorem State.inv_of_parts {s : State} (hcfg : s.cfg.wf = true) (hmem : s.mem.wf = true) (hsound : s.Sound)
    (hstatus : s.StatusLegal) (houtput : s.OutputBounded) : s.Inv :=
  ⟨hcfg, hmem, hsound.permutation, hsound.counter, hsound.stride, hstatus, houtput.buffered, houtput.output⟩

/-- Reset gives STATUS and an output that are within bounds. -/
theorem State.inv_of_reset_values {s : State} (hcfg : s.cfg.wf = true) (hmem : s.mem = []) (hsound : s.Sound)
    (herr : s.err = false) (hcode : s.errcode = 0#3) (hbuffer : s.buffer = []) (hpending : s.pending = []) : s.Inv := by
  exact State.inv_of_parts hcfg (by rw [hmem]; rfl) hsound
    (State.statusLegal_of_values herr hcode (by decide)) (State.outputBounded_of_nil hbuffer hpending)

theorem State.IsStart.inv {s : State} (h : s.IsStart) : s.Inv := by
  have hsound := h.sound
  obtain ⟨c, hc, offered, edges, rfl⟩ := h
  exact State.inv_of_reset_values hc rfl hsound rfl rfl rfl rfl

/-- Settles O19, from the soundness of every start and the values of reset. -/
theorem everyStartMeetsTheInvariant : Obligations.EveryStartMeetsTheInvariant := by
  unfold Obligations.EveryStartMeetsTheInvariant
  exact ⟨⟨State.reset.cfg, rfl, [], [], rfl⟩, fun _ h => h.inv⟩

/-- Settles O20, case by case of what a step can do, and in each case part by part of the invariant. -/
theorem stepKeepsTheInvariant : Obligations.StepKeepsTheInvariant := by
  unfold Obligations.StepKeepsTheInvariant
  intro s t hinv h
  have hsound : t.Sound := step_keeps_sound h hinv.sound
  rcases step_cases h with ⟨-, rfl⟩ | ⟨-, -, rfl⟩ | ⟨-, -, -, rfl⟩ |
    ⟨word, words, -, hbusy, -, -, ⟨cause, -, rfl⟩ | ⟨i, -, hx⟩⟩
  case inl => exact State.inv_of_reset_values hinv.config rfl hsound rfl rfl rfl rfl
  case inr.inl =>
    have hflowed := flowed_busyEdge s
    exact State.inv_of_parts (by rw [hflowed.cfg]; exact hinv.config) (by rw [hflowed.mem]; exact hinv.canonical) hsound
      (hflowed.status.statusLegal hinv.status) hinv.outputBounded.busyEdge
  case inr.inr.inl =>
    exact State.inv_of_parts hinv.config hinv.canonical hsound hinv.status ⟨hinv.buffered, hinv.output⟩
  case inr.inr.inr.inl =>
    have hports := s.consumeWord.samePorts_reject cause
    refine State.inv_of_parts (by rw [hports.cfg]; exact hinv.config) (by rw [State.reject_mem]; exact hinv.canonical) hsound
      (State.StatusLegal.reject (s := s.consumeWord) hinv.status cause) ⟨?_, ?_⟩
    · rw [hports.buffer, hports.cfg]; exact hinv.buffered
    · rw [hports.buffer, State.reject_pending]; exact hinv.output
  case inr.inr.inr.inr =>
    obtain ⟨-, hbuffer, hpending⟩ := s.busy_eq_false_iff.mp hbusy
    exact State.inv_of_parts (by rw [(exec_samePorts hx).cfg]; exact hinv.config) (exec_keeps_wf hx hinv.canonical) hsound
      (exec_keeps_statusLegal hx hinv.status) (exec_outputBounded hx hbuffer hpending)

end Sys2Proof.Machine
end

section
/-! SUPPORT. The ports (30_encoding R82 to R86): the step of each event, what the host's and the engine's part of an edge of a
running command do, and that such a command completes. -/

namespace Sys2Proof.Machine

/-! ### The step of each event -/

/-- A running command's edge, whatever is offered (R82). -/
theorem step_of_busy {s : State} (hrst : s.edge.rst = false) (hbusy : s.busy = true) : step s = .next s.busyEdge := by
  simp [step, portEvent, hrst, hbusy]

/-- No word is offered to an idle engine (R243). -/
theorem step_of_nothing_offered {s : State} (hrst : s.edge.rst = false) (hbusy : s.busy = false)
    (hnone : s.edge.cmdValid = false ∨ s.offered = []) : step s = .next s.passEdge := by
  rcases hnone with hvalid | hoffered
  · simp [step, portEvent, hrst, hbusy, hvalid]
  · cases hvalid : s.edge.cmdValid <;> simp [step, portEvent, hrst, hbusy, hvalid, hoffered]

/-- A transferred word that decodes is executed (R75, R82). -/
theorem step_of_accepted {s : State} {w : Word} {i : Instr} (hevent : portEvent s = .command w)
    (hdecode : decode s.cfg.readback w = .ok i) : step s = exec i s.acceptWord := by
  simp only [step, hevent, hdecode]

/-- Settles O14, by the step of an edge at which nothing is offered. -/
theorem idleEngineKeepsItsState : Obligations.IdleEngineKeepsItsState := by
  unfold Obligations.IdleEngineKeepsItsState
  exact fun s hrst hbusy hnone => step_of_nothing_offered hrst hbusy hnone

theorem State.acceptWord_of_offered {s : State} {w : Word} {ws : List Word} (h : s.offered = w :: ws) :
    s.acceptWord = { s with working := s.edge.stall, offered := ws, edges := s.edges.tail } := by
  simp [State.acceptWord, State.consumeWord, State.passEdge, h]

/-- The word that `withFetchWord` presents is transferred at the next edge (log entry 2). -/
theorem portEvent_withFetchWord (s : State) (nbits w : Nat) :
    portEvent (s.withFetchWord nbits w) = .command (tableWord nbits w) :=
  portEvent_of_transferred rfl rfl rfl rfl

/-- Settles O6, from the step of an accepted word. -/
theorem stepRunsTheDecodedCommand : Obligations.StepRunsTheDecodedCommand := by
  unfold Obligations.StepRunsTheDecodedCommand
  refine ⟨fun s w ws i hrst hvalid hbusy hoffered hdecode => ?offered, fun s nbits w i hdecode => ?presented⟩
  case offered =>
    rw [step_of_accepted (portEvent_of_transferred hrst hvalid hbusy hoffered) hdecode, State.acceptWord_of_offered hoffered]
  case presented => exact step_of_accepted (portEvent_withFetchWord s nbits w) hdecode

/-- Settles O13, for every value of the three fields. -/
theorem statusBitsAreLaidOutAsTabled : Obligations.StatusBitsAreLaidOutAsTabled := by
  unfold Obligations.StatusBitsAreLaidOutAsTabled
  intro s
  unfold State.status
  generalize s.errcode = code
  generalize s.err = err
  generalize s.busy = busy
  revert code err busy
  decide

/-! ### The two parts of an edge of a running command -/

/-- The host's part of an edge: it takes a byte if it is ready (R84). -/
def State.hostPart (s : State) : State := if s.edge.outReady then s.passEdge.takeByte else s.passEdge

/-- The engine's part of an edge: without a stall it emits a byte and its work ends (R84, log entry 3). -/
def State.enginePart (s : State) (stall : Bool) : State := if stall then s else { s.emitByte with working := false }

theorem busyEdge_eq (s : State) : s.busyEdge = s.hostPart.enginePart s.edge.stall := rfl

theorem State.hostPart_of_nothing_taken {s : State} (h : s.edge.outReady = false ∨ s.buffer = []) : s.hostPart = s.passEdge := by
  rcases h with hready | hbuffer
  · simp [State.hostPart, hready]
  · simp [State.hostPart, State.takeByte, State.passEdge, hbuffer]

theorem State.hostPart_of_byte_taken {s : State} {b : Byte} {bs : List Byte} (hready : s.edge.outReady = true)
    (hbuffer : s.buffer = b :: bs) :
    s.hostPart = { s.passEdge with received := s.received ++ [b], buffer := bs } := by
  simp [State.hostPart, hready, State.takeByte, State.passEdge, hbuffer]

/-- An engine that stalls, or has no room, emits nothing (R84). -/
theorem State.enginePart_of_waiting {s : State} {stall : Bool} (h : s.cfg.outDepth ≤ s.buffer.length ∨ stall = true) :
    ∃ working, s.enginePart stall = { s with working := working } := by
  cases stall with
  | true => exact ⟨s.working, rfl⟩
  | false =>
    have hemit : s.emitByte = s := by
      rcases emitByte_cases s with ⟨-, heq⟩ | ⟨b, bs, -, hroom, -⟩
      · exact heq
      · exact absurd (h.resolve_right (by decide)) (Nat.not_le.mpr hroom)
    exact ⟨false, by simp [State.enginePart, hemit]⟩

/-- An engine that does not stall puts its next byte where there is room for it (R84). -/
theorem State.enginePart_of_room {s : State} {b : Byte} {bs : List Byte} (hpending : s.pending = b :: bs)
    (hroom : s.buffer.length < s.cfg.outDepth) :
    s.enginePart false = { s with working := false, buffer := s.buffer ++ [b], pending := bs } := by
  simp [State.enginePart, State.emitByte, hpending, hroom]

theorem State.Flowed.refl (s : State) : s.Flowed s := ⟨rfl, ⟨rfl, ⟨rfl, rfl, rfl⟩, rfl, rfl⟩, ⟨rfl, rfl⟩, rfl, rfl, rfl⟩

theorem State.flowed_enginePart (s : State) (stall : Bool) : s.Flowed (s.enginePart stall) := by
  unfold State.enginePart
  split
  · exact State.Flowed.refl s
  · obtain ⟨hmem, hregisters, hstatus, hcfg, hoffered, hbytes⟩ := flowed_emitByte s
    exact ⟨hmem, ⟨hregisters.a, ⟨hregisters.indices.i, hregisters.indices.j, hregisters.indices.k⟩, hregisters.w, hregisters.z⟩,
      ⟨hstatus.err, hstatus.errcode⟩, hcfg, hoffered, hbytes⟩

/-- Emitting leaves the bytes that the host has, and the buffer's bytes in front. -/
theorem State.received_emitByte (s : State) : s.emitByte.received = s.received ∧ s.buffer <+: s.emitByte.buffer := by
  rcases emitByte_cases s with ⟨-, h⟩ | ⟨b, bs, -, -, h⟩ <;> rw [h]
  · exact ⟨rfl, List.prefix_rfl⟩
  · exact ⟨rfl, List.prefix_append _ _⟩

/-- What the engine's part of an edge does to the bytes under way: it moves one behind the buffer at most. -/
structure State.MovedBehind (s t : State) : Prop where
  received : t.received = s.received
  buffer : s.buffer <+: t.buffer
  bytes : t.buffer ++ t.pending = s.buffer ++ s.pending

theorem State.movedBehind_enginePart (s : State) (stall : Bool) : s.MovedBehind (s.enginePart stall) := by
  have hreceived : (s.enginePart stall).received = s.received ∧ s.buffer <+: (s.enginePart stall).buffer := by
    unfold State.enginePart
    split
    · exact ⟨rfl, List.prefix_rfl⟩
    · exact s.received_emitByte
  have hbytes := (s.flowed_enginePart stall).bytes
  rw [hreceived.1] at hbytes
  exact ⟨hreceived.1, hreceived.2, List.append_cancel_left hbytes⟩

/-- The engine is done after its part of an edge exactly if no byte is under way and its work was, or is now, ended (R33). -/
theorem State.enginePart_busy_eq_false_iff (s : State) (stall : Bool) :
    (s.enginePart stall).busy = false ↔ s.buffer = [] ∧ s.pending = [] ∧ (s.working = false ∨ stall = false) := by
  have hbytes := (s.movedBehind_enginePart stall).bytes
  have hnil : (s.enginePart stall).buffer = [] ∧ (s.enginePart stall).pending = [] ↔ s.buffer = [] ∧ s.pending = [] := by
    rw [← List.append_eq_nil_iff, hbytes, List.append_eq_nil_iff]
  have hworking : (s.enginePart stall).working = false ↔ s.working = false ∨ stall = false := by
    cases stall <;> simp [State.enginePart]
  rw [State.busy_eq_false_iff, hnil, hworking]
  tauto

/-- Settles O8, from what an edge of a running command leaves. -/
theorem busyEngineAcceptsNoWord : Obligations.BusyEngineAcceptsNoWord := by
  unfold Obligations.BusyEngineAcceptsNoWord
  intro s hrst hbusy
  have hready : s.cmdReady = false := by simp [State.cmdReady, hbusy]
  obtain ⟨hmem, hregisters, hstatus, hcfg, hoffered, hbytes⟩ := flowed_busyEdge s
  exact ⟨hready, s.busyEdge, step_of_busy hrst hbusy, hoffered, hmem, hregisters, hstatus, hcfg, hbytes⟩

/-- Settles O10: the host takes nothing, so the edge is the engine's part alone. -/
theorem engineWaitsWhileTheBufferIsFull : Obligations.EngineWaitsWhileTheBufferIsFull := by
  unfold Obligations.EngineWaitsWhileTheBufferIsFull
  intro s hrst hbusy hnothing
  have hstep : step s = .next (s.passEdge.enginePart s.edge.stall) := by
    rw [step_of_busy hrst hbusy, busyEdge_eq, State.hostPart_of_nothing_taken hnothing]
  refine ⟨fun hwaits => ⟨_, hstep, ?waits⟩, fun b bs hroom hstall hpending => ⟨_, hstep, ?emits⟩⟩
  case waits =>
    obtain ⟨working, hengine⟩ := State.enginePart_of_waiting (s := s.passEdge) hwaits
    rw [hengine]
    exact ⟨rfl, rfl, rfl⟩
  case emits =>
    rw [hstall, State.enginePart_of_room (s := s.passEdge) hpending hroom]
    exact ⟨rfl, rfl, rfl⟩

/-- Settles O9: a ready host takes the oldest byte, another nothing, and the engine's part follows. -/
theorem readyHostTakesTheOldestByte : Obligations.ReadyHostTakesTheOldestByte := by
  unfold Obligations.ReadyHostTakesTheOldestByte
  intro s b bs hrst hbuffer
  have hvalid : s.outValid = true := by simp [State.outValid, hrst, hbuffer]
  have hdata : s.outData = some b := by simp [State.outData, hbuffer]
  have hbusy : s.busy = true := by simp [State.busy, hbuffer]
  have hstep := step_of_busy hrst hbusy
  refine ⟨hvalid, hdata, fun hready => ⟨_, hstep, ?taken⟩, fun hready => ⟨_, hstep, ?waits⟩⟩
  case taken =>
    rw [busyEdge_eq, State.hostPart_of_byte_taken hready hbuffer]
    obtain ⟨hreceived, hprefix, hbytes⟩ := State.movedBehind_enginePart
      { s.passEdge with received := s.received ++ [b], buffer := bs } s.edge.stall
    exact ⟨hreceived, hprefix, hbytes, State.enginePart_busy_eq_false_iff _ _⟩
  case waits =>
    rw [busyEdge_eq, State.hostPart_of_nothing_taken (.inl hready)]
    obtain ⟨hreceived, hprefix, hbytes⟩ := s.passEdge.movedBehind_enginePart s.edge.stall
    have hnotDone : (s.passEdge.enginePart s.edge.stall).busy ≠ false := fun hdone => by
      have hnil : s.buffer = [] := ((State.enginePart_busy_eq_false_iff _ _).mp hdone).1
      simp [hbuffer] at hnil
    exact ⟨hreceived, hprefix, hbytes, Bool.eq_true_of_not_eq_false hnotDone⟩

/-! ### Completion (R33, R84) -/

/-- The running command complete: its work done and every byte of it with the host. -/
def State.completed (s : State) : State :=
  { s with working := false, buffer := [], pending := [], received := s.received ++ (s.buffer ++ s.pending) }

/-- Edges of a running command do not change what it is when complete. -/
theorem State.Flowed.completed_eq {s t : State} (h : s.Flowed t) (hedges : t.edges = s.edges) : t.completed = s.completed := by
  obtain ⟨hmem, ⟨ha, ⟨hi, hj, hk⟩, hw, hz⟩, ⟨herr, hcode⟩, hcfg, hoffered, hbytes⟩ := h
  ext1
  exacts [hcfg, hmem, ha, hi, hj, hk, hw, hz, herr, hcode, rfl, rfl, rfl, hbytes, hoffered, hedges]

theorem State.completed_of_not_busy {s : State} (h : s.busy = false) : s.completed = s := by
  obtain ⟨hworking, hbuffer, hpending⟩ := s.busy_eq_false_iff.mp h
  ext1 <;> simp [State.completed, hworking, hbuffer, hpending]

theorem runEdges_succ_of_step {s t : State} (h : step s = .next t) (n : Nat) : runEdges (n + 1) s = runEdges n t := by
  simp only [runEdges, h]

/-- The work is done, and a byte is presented as long as one is under way. -/
structure State.Presenting (s : State) : Prop where
  working : s.working = false
  presented : s.buffer = [] → s.pending = []

theorem State.edges_takeByte (s : State) : s.takeByte.edges = s.edges := by
  rcases takeByte_cases s with ⟨-, h⟩ | ⟨b, bs, -, h⟩ <;> rw [h]

theorem State.edges_emitByte (s : State) : s.emitByte.edges = s.edges := by
  rcases emitByte_cases s with ⟨-, h⟩ | ⟨b, bs, -, -, h⟩ <;> rw [h]

theorem State.edges_busyEdge (s : State) : s.busyEdge.edges = s.edges.tail :=
  busyEdge_induction (P := fun t => t.edges = s.edges.tail) rfl (fun t h => t.edges_takeByte.trans h)
    (fun t h => t.edges_emitByte.trans h) fun _ h => h

/-- After an edge at which neither side waits, the engine presents what is left. -/
theorem State.presenting_busyEdge {s : State} (hedges : s.edges = []) (hdepth : 1 ≤ s.cfg.outDepth) : s.busyEdge.Presenting := by
  have hcfg : s.takeByte.cfg = s.cfg := (flowed_takeByte s).cfg
  rw [busyEdge_plain hedges]
  refine ⟨rfl, fun hbuffer => ?_⟩
  rcases emitByte_cases s.takeByte with ⟨hnil | hfull, h⟩ | ⟨b, bs, -, -, h⟩
  · simpa [h] using hnil
  · rw [h] at hbuffer
    have hbuffer' : s.takeByte.buffer = [] := hbuffer
    rw [hcfg, hbuffer'] at hfull
    exact absurd (hdepth.trans hfull) (by simp)
  · rw [h] at hbuffer
    simp at hbuffer

/-- How many bytes are under way. -/
def State.underWay (s : State) : Nat := s.buffer.length + s.pending.length

theorem State.underWay_emitByte (s : State) : s.emitByte.underWay = s.underWay := by
  unfold State.underWay
  rcases emitByte_cases s with ⟨-, h⟩ | ⟨b, bs, hp, -, h⟩ <;> rw [h]
  simp only [hp, List.length_append, List.length_cons, List.length_nil]
  omega

theorem State.underWay_busyEdge {s : State} (hedges : s.edges = []) : s.busyEdge.underWay = s.takeByte.underWay := by
  rw [busyEdge_plain hedges]
  exact s.takeByte.underWay_emitByte

theorem State.underWay_takeByte_le (s : State) : s.takeByte.underWay ≤ s.underWay := by
  unfold State.underWay
  rcases takeByte_cases s with ⟨-, h⟩ | ⟨b, bs, hb, h⟩ <;> rw [h]
  simp only [hb, List.length_cons]
  omega

theorem State.underWay_takeByte_of_presented {s : State} (h : s.buffer ≠ []) : s.takeByte.underWay + 1 = s.underWay := by
  unfold State.underWay
  rcases takeByte_cases s with ⟨hb, -⟩ | ⟨b, bs, hb, h⟩
  · exact absurd hb h
  · rw [h]
    simp only [hb, List.length_cons]
    omega

/-- A presenting engine gives the host a byte at each edge, and is done when none is left. -/
theorem runEdges_of_presenting {s : State} (hdepth : 1 ≤ s.cfg.outDepth) (hedges : s.edges = []) (h : s.Presenting) :
    runEdges s.underWay s = some s.completed := by
  induction hn : s.underWay generalizing s with
  | zero =>
    have hbuffer : s.buffer = [] := List.eq_nil_of_length_eq_zero (by unfold State.underWay at hn; omega)
    have hidle : s.busy = false := s.busy_eq_false_iff.mpr ⟨h.working, hbuffer, h.presented hbuffer⟩
    rw [State.completed_of_not_busy hidle]
    rfl
  | succ n ih =>
    have hbuffer : s.buffer ≠ [] := fun hnil => by simp [State.underWay, hnil, h.presented hnil] at hn
    have hbusy : s.busy = true := by simp [State.busy, hbuffer]
    have hflowed := flowed_busyEdge s
    have hedges' : s.busyEdge.edges = [] := by rw [s.edges_busyEdge, hedges, List.tail_nil]
    have hless : s.busyEdge.underWay = n := by
      have := State.underWay_takeByte_of_presented hbuffer
      rw [State.underWay_busyEdge hedges]
      omega
    rw [runEdges_succ_of_step (step_busy_plain hedges hbusy),
      ih (by rw [hflowed.cfg]; exact hdepth) hedges' (State.presenting_busyEdge hedges hdepth) hless,
      hflowed.completed_eq (hedges'.trans hedges.symm)]

/-- A running command completes within one edge for its work and one for each byte (R84, log entry 3). -/
theorem exists_runEdges_completed {s : State} (hdepth : 1 ≤ s.cfg.outDepth) (hedges : s.edges = []) :
    ∃ n ≤ 1 + s.underWay, runEdges n s = some s.completed := by
  cases hbusy : s.busy with
  | false => exact ⟨0, Nat.zero_le _, by rw [State.completed_of_not_busy hbusy]; rfl⟩
  | true =>
    have hflowed := flowed_busyEdge s
    have hedges' : s.busyEdge.edges = [] := by rw [s.edges_busyEdge, hedges, List.tail_nil]
    have hrun := runEdges_of_presenting (by rw [hflowed.cfg]; exact hdepth) hedges' (State.presenting_busyEdge hedges hdepth)
    refine ⟨s.busyEdge.underWay + 1, ?_, ?_⟩
    · have := s.underWay_takeByte_le
      rw [State.underWay_busyEdge hedges]
      omega
    · rw [runEdges_succ_of_step (step_busy_plain hedges hbusy), hrun, hflowed.completed_eq (hedges'.trans hedges.symm)]

/-- Settles O17, from the completion of a running command. -/
theorem runningCommandCompletes : Obligations.RunningCommandCompletes := by
  unfold Obligations.RunningCommandCompletes
  intro s hwf hedges
  obtain ⟨n, hn, hrun⟩ := exists_runEdges_completed (of_decide_eq_true hwf) hedges
  exact ⟨n, by unfold State.underWay at hn; omega, hrun⟩

end Sys2Proof.Machine
end

section
/-! SUPPORT. Single commands: SWAP undone by itself (40_table R103), absorbing below the threshold (41_absorption R123), a second
CRUSH and the counter that SHUFFLE does not read (42_scrambler R146, R147), the readback commands (44_readback R190 to R193), and
the frame of every command (10_state R28). -/

namespace Sys2Proof.Machine

/-! ### SWAP twice -/

theorem Memory.lt_of_mem {m : Memory} (h : m.wf = true) {c : Host.Cell} (hc : c ∈ m) : c.1 < 256 := by
  induction m with
  | nil => simp at hc
  | cons d m ih =>
    obtain ⟨hlt, -, -, hwf⟩ := (Memory.wf_cons d m).mp h
    rcases List.mem_cons.mp hc with rfl | hc
    · exact hlt
    · exact ih hwf hc

/-- Equal tables are equal data (log entry 5): the canonical form lists no index beyond the table. -/
theorem State.SameTable.mem_eq {s t : State} (h : s.SameTable t) (hs : s.mem.wf = true) (ht : t.mem.wf = true) : t.mem = s.mem := by
  refine Memory.ext_of_wf ht hs fun n => ?_
  by_cases hn : n < 256
  · have hv : (BitVec.ofNat 8 n).toNat = n := by rw [BitVec.toNat_ofNat]; exact Nat.mod_eq_of_lt hn
    have hread : t.mem.read (BitVec.ofNat 8 n).toNat = s.mem.read (BitVec.ofNat 8 n).toNat := h (BitVec.ofNat 8 n)
    rwa [hv] at hread
  · have hbeyond : ∀ m : Memory, m.wf = true → ∀ c ∈ m, c.1 ≠ n := fun m hm c hc => by
      have := Memory.lt_of_mem hm hc
      omega
    rw [Memory.read_of_not_listed (hbeyond _ ht), Memory.read_of_not_listed (hbeyond _ hs)]

/-- The two entries named in the other order are exchanged all the same (R100). -/
theorem State.Exchanged.symm {s t : State} {x y : Byte} (h : s.Exchanged t x y) : s.Exchanged t y x :=
  ⟨h.second, h.first, fun v hy hx => h.others v hx hy⟩

/-- Exchanging two entries twice leaves the table. -/
theorem State.Exchanged.sameTable_of_twice {s t u : State} {x y : Byte} (h : s.Exchanged t x y) (h' : t.Exchanged u x y) :
    s.SameTable u := by
  intro v
  by_cases hx : v = x
  · rw [hx, h'.first, h.second]
  · by_cases hy : v = y
    · rw [hy, h'.second, h.first]
    · rw [h'.others v hx hy, h.others v hx hy]

/-- A swap of the same two entries, in either order, undoes a swap (R103). -/
theorem State.swap_undoes {s : State} (hwf : s.mem.wf = true) {x y x' y' : Byte}
    (h : (s.swap x y).Exchanged ((s.swap x y).swap x' y') x y) : (s.swap x y).swap x' y' = s := by
  have hmem : ((s.swap x y).swap x' y').mem = s.mem :=
    ((s.exchanged_swap x y).sameTable_of_twice h).mem_eq hwf (State.wf_swap (State.wf_swap hwf x y) x' y')
  ext1
  exacts [rfl, hmem, rfl, rfl, rfl, rfl, rfl, rfl, rfl, rfl, rfl, rfl, rfl, rfl, rfl, rfl]

/-- Settles O26: the second exchange gives the first table back, and in the canonical form the memory with it. -/
theorem swapTwiceRestoresTheState : Obligations.SwapTwiceRestoresTheState := by
  unfold Obligations.SwapTwiceRestoresTheState
  intro s x y hwf
  have hsame : (s.swap x y).swap x y = s := State.swap_undoes hwf (State.exchanged_swap _ x y)
  have hother : (s.swap x y).swap y x = s := State.swap_undoes hwf (State.exchanged_swap _ y x).symm
  exact ⟨s.swap x y, exec_swap x y s, by rw [exec_swap, hsame], by rw [exec_swap, hother]⟩

/-! ### Absorbing below the threshold -/

/-- Absorbing nibbles as long as the count stays at most 128 is counting them, and exchanging entries (R123). -/
theorem execAll_absorbNibble (vs : List Nibble) (s : State) (h : s.a.toNat + vs.length ≤ 128) :
    ∃ t, execAll (vs.map Instr.absorbNibble) s = .next t ∧ t.a.toNat = s.a.toNat + vs.length ∧ s.SameIndices t ∧
      t.w = s.w ∧ s.Scrambled t := by
  induction vs generalizing s with
  | nil => exact ⟨s, rfl, rfl, ⟨rfl, rfl, rfl⟩, rfl, State.Scrambled.refl s⟩
  | cons v vs ih =>
    rw [List.length_cons] at h
    have hne : s.a ≠ 128#8 := by bv_omega
    have ha : (s.absorbNibble v).a.toNat = s.a.toNat + 1 := by rw [State.absorbNibble_a hne]; bv_omega
    have hi := State.absorbNibble_sameIndices hne v
    obtain ⟨t, ht, hta, htindices, htw, hscrambled⟩ := ih (s.absorbNibble v) (by omega)
    refine ⟨t, ht, by rw [hta, ha, List.length_cons]; omega,
      ⟨htindices.i.trans hi.i, htindices.j.trans hi.j, htindices.k.trans hi.k⟩,
      htw.trans (State.absorbNibble_w hne v), (s.scrambled_absorbNibble v).trans hscrambled⟩

/-- Settles O30, by induction on the nibbles. -/
theorem absorbingUpToTheThresholdDoesNotShuffle : Obligations.AbsorbingUpToTheThresholdDoesNotShuffle := by
  unfold Obligations.AbsorbingUpToTheThresholdDoesNotShuffle
  intro s vs h
  obtain ⟨t, ht, ha, hindices, hw, hscrambled⟩ := execAll_absorbNibble vs s h
  exact ⟨t, ht, ha, hindices, hw, hscrambled.z, hscrambled.pending⟩

/-! ### CRUSH twice -/

/-- Every pair of crush is in order (R142). -/
def State.PairsInOrder (s : State) : Prop := ∀ v : Byte, v < 128#8 → s.S v ≤ s.S (255#8 - v)

theorem State.PairsInOrder.crushPair_eq {s : State} (h : s.PairsInOrder) {v : Byte} (hv : v < 128#8) : s.crushPair v = s :=
  if_neg (BitVec.not_lt.mpr (h v hv))

theorem State.PairsInOrder.crush_eq {s : State} (h : s.PairsInOrder) : s.crush = s := by
  unfold State.crush
  exact List.foldlRecOn (motive := fun t => t = s) crushRange State.crushPair rfl fun t ht v hv => by
    rw [ht, h.crushPair_eq (mem_crushRange.mp hv)]

theorem State.pairsInOrder_crush (s : State) : s.crush.PairsInOrder := by
  intro v hv
  have hpair := s.pairOrdered_crush hv
  rw [hpair.low, hpair.high]
  split
  next hlt => exact BitVec.le_of_lt hlt
  next hge => exact BitVec.not_lt.mp hge

/-- Settles O35: a crush leaves every pair in order, so that a second one swaps none. -/
theorem crushTwiceIsCrushOnce : Obligations.CrushTwiceIsCrushOnce := by
  unfold Obligations.CrushTwiceIsCrushOnce
  intro s t h
  cases h
  rw [exec_crush, s.pairsInOrder_crush.crush_eq]

/-! ### SHUFFLE and the counter -/

/-- shuffle() neither reads a nor leaves anything of it (R147). -/
theorem State.shuffle_setA (s : State) (a : Byte) : (s.setA a).shuffle = s.shuffle := by
  have hcore : (s.setA a).SameCore s := ⟨rfl, rfl, rfl, rfl, rfl⟩
  have hframe : s.shuffle.SameSurface (s.setA a).shuffle :=
    s.scrambled_shuffle.sameSurface.symm.trans ((s.scrambled_setA a).sameSurface.trans (s.setA a).scrambled_shuffle.sameSurface)
  have hz : (s.setA a).shuffle.z = s.shuffle.z := by
    rw [(s.setA a).scrambled_shuffle.z, s.scrambled_shuffle.z, State.setA_z]
  have hpending : (s.setA a).shuffle.pending = s.shuffle.pending := by
    rw [(s.setA a).scrambled_shuffle.pending, s.scrambled_shuffle.pending, State.setA_pending]
  exact State.eq_of_same ⟨hcore.shuffle, by rw [State.shuffle_a, State.shuffle_a], hz⟩ hframe.ports hframe.status hpending

/-- Settles O37, from what a shuffle reads. -/
theorem shuffleIgnoresTheCounter : Obligations.ShuffleIgnoresTheCounter := by
  unfold Obligations.ShuffleIgnoresTheCounter
  intro s a
  have hset : { s with a := a } = s.setA a := rfl
  rw [hset, exec_shuffle, exec_shuffle, State.shuffle_setA]

/-! ### The readback commands -/

/-- A register number of 6 or more is BAD_REGISTER (R191, R193). -/
theorem exec_readReg_of_gt {s : State} (h : s.cfg.readback = true) {r : Byte} (hr : 5#8 < r) :
    exec (.readReg r) s = .next (s.reject .badRegister) := by
  refine exec_readReg_of_none h ?_
  rw [← Option.not_isSome_iff_eq_none, regOfNumber_isSome_iff]
  exact BitVec.not_le.mpr hr

/-- Settles O41, by the register of each number. -/
theorem readbackEmitsTheSelectedByte : Obligations.ReadbackEmitsTheSelectedByte := by
  unfold Obligations.ReadbackEmitsTheSelectedByte
  intro s h
  exact ⟨exec_readS_of_readback h, exec_readReg_of_some h (n := .a) rfl, exec_readReg_of_some h (n := .i) rfl,
    exec_readReg_of_some h (n := .j) rfl, exec_readReg_of_some h (n := .k) rfl, exec_readReg_of_some h (n := .w) rfl,
    exec_readReg_of_some h (n := .z) rfl⟩

/-- Settles O42, from the rejections of the two meanings. -/
theorem unavailableReadbackIsRejected : Obligations.UnavailableReadbackIsRejected := by
  unfold Obligations.UnavailableReadbackIsRejected
  intro s x r
  exact ⟨fun h => ⟨exec_readS_of_not_readback h x, exec_readReg_of_not_readback h r⟩, fun h hr => exec_readReg_of_gt h hr⟩

/-! ### The frame of every command -/

/-- A byte absorbed below the threshold and not at its edge shuffles before neither nibble (R121, R123). -/
theorem State.absorbNibble_twice_frame {s : State} (h127 : s.a ≠ 127#8) (h128 : s.a ≠ 128#8) (v v' : Nibble) :
    s.SameIndices ((s.absorbNibble v).absorbNibble v') ∧ ((s.absorbNibble v).absorbNibble v').w = s.w := by
  have hne : (s.absorbNibble v).a ≠ 128#8 := by rw [State.absorbNibble_a h128]; bv_omega
  have hlow := State.absorbNibble_sameIndices h128 v
  have hhigh := State.absorbNibble_sameIndices hne v'
  exact ⟨⟨hhigh.i.trans hlow.i, hhigh.j.trans hlow.j, hhigh.k.trans hlow.k⟩,
    (State.absorbNibble_w hne v').trans (State.absorbNibble_w h128 v)⟩

/-- With nothing pending, drips keep a and w (R28, R171). -/
theorem State.emitDrips_a_w {s : State} (h : s.a = 0#8) (n : Nat) :
    (Nat.iterate State.emitDrip n s).a = s.a ∧ (Nat.iterate State.emitDrip n s).w = s.w := by
  refine iterate_related (R := fun s t => s.a = 0#8 → t.a = s.a ∧ t.w = s.w) (fun _ _ => ⟨rfl, rfl⟩) ?trans ?drip n s h
  case trans =>
    intro s t u hst htu ha
    obtain ⟨hta, htw⟩ := hst ha
    obtain ⟨hua, huw⟩ := htu (hta.trans ha)
    exact ⟨hua.trans hta, huw.trans htw⟩
  case drip =>
    intro s ha
    rw [State.emitDrip_of_eq_zero ha]
    exact ⟨rfl, rfl⟩

theorem State.squeeze_of_eq_zero {s : State} (h : s.a = 0#8) (count : Nat) :
    s.squeeze count = Nat.iterate State.emitDrip count s := by
  rw [State.squeeze, State.drain_of_eq_zero h]

/-- Settles O45, command by command: the ports for all at once, the rest from the frame of the command's operation. -/
theorem everyCommandWritesOnlyItsRow : Obligations.EveryCommandWritesOnlyItsRow := by
  unfold Obligations.EveryCommandWritesOnlyItsRow
  intro i s t h
  refine ⟨exec_samePorts h, ?_⟩
  cases i with
  | init => cases h; rfl
  | swap x y => cases h; exact ⟨s.swap_registers x y, ⟨rfl, rfl⟩, rfl⟩
  | absorbNibble v =>
    cases h
    obtain ⟨-, hstatus, hpending, hz⟩ := s.scrambled_absorbNibble v
    exact ⟨hz, hstatus, hpending, fun hne => ⟨State.absorbNibble_sameIndices hne v, State.absorbNibble_w hne v⟩⟩
  | absorbByte b =>
    cases h
    obtain ⟨-, hstatus, hpending, hz⟩ :=
      (s.scrambled_absorbNibble (lowNibble b)).trans (State.scrambled_absorbNibble _ (highNibble b))
    exact ⟨hz, hstatus, hpending, fun h127 h128 => State.absorbNibble_twice_frame h127 h128 _ _⟩
  | absorbStop =>
    cases h
    obtain ⟨-, hstatus, hpending, hz⟩ := s.scrambled_threshold.trans (State.scrambled_setA _ (s.threshold.a + 1#8))
    refine ⟨hz, hstatus, hpending, fun hne => ?_⟩
    rw [State.absorbStop, State.threshold_of_ne hne]
    exact ⟨rfl, ⟨rfl, rfl, rfl⟩, rfl⟩
  | update => cases h; exact ⟨rfl, rfl, rfl, ⟨rfl, rfl⟩, rfl⟩
  | whip =>
    cases h
    obtain ⟨-, hstatus, hpending, hz⟩ := s.scrambled_whip
    exact ⟨s.whip_a, hz, hstatus, hpending⟩
  | crush =>
    cases h
    obtain ⟨-, hstatus, hpending, -⟩ := s.scrambled_crush
    exact ⟨s.crush_registers, hstatus, hpending⟩
  | shuffle =>
    cases h
    obtain ⟨-, hstatus, hpending, hz⟩ := s.scrambled_shuffle
    exact ⟨hz, hstatus, hpending⟩
  | output => cases h; exact ⟨rfl, rfl, ⟨rfl, rfl, rfl⟩, rfl, rfl, rfl⟩
  | drip => cases h; exact ⟨s.sameSurface_emitDrip.status, fun ha => State.emitDrips_a_w ha 1⟩
  | squeeze n =>
    cases h
    refine ⟨(s.sameSurface_squeeze _).status, fun ha => ?_, fun ha hn => ?_⟩
    · rw [State.squeeze_of_eq_zero ha]
      exact State.emitDrips_a_w ha (squeezeCount n)
    · rw [State.squeeze_of_eq_zero ha, hn]
      exact ⟨rfl, rfl, ⟨rfl, rfl, rfl⟩, rfl, rfl⟩
  | readS x =>
    obtain ⟨hmem, hregisters⟩ := (exec_readS_answered h).mem_registers
    refine ⟨hmem, hregisters, fun hb => ?_⟩
    rw [exec_readS_of_readback hb] at h
    cases h
    exact ⟨rfl, rfl⟩
  | readReg r =>
    obtain ⟨hmem, hregisters⟩ := (exec_readReg_answered h).mem_registers
    refine ⟨hmem, hregisters, fun hb hr => ?_⟩
    obtain ⟨n, hn⟩ := Option.isSome_iff_exists.mp ((regOfNumber_isSome_iff r).mpr hr)
    rw [exec_readReg_of_some hb hn] at h
    cases h
    exact ⟨rfl, rfl⟩

end Sys2Proof.Machine
end

section
/-! SUPPORT. STATUS errors and the session premise (10_state R34, R35; 70_reset R263, R274): what an accepted word does to ERR and
ERRCODE, and what an accepted INIT leaves until the next word. -/

namespace Sys2Proof.Machine

/-! ### Accepted words and STATUS -/

theorem encode_init : encode .init = 0x01000000#32 := rfl

/-- A readback command is accepted only with P_READBACK (R192). -/
theorem readback_of_decode {b : Bool} {w : Word} {i : Instr} (h : decode b w = .ok i)
    (hi : isReadback (Word.opc (encode i)) = true) : b = true := by
  rw [encode_of_decode h] at hi
  exact (decode_eq_ok_iff.mp h).2.1 hi

/-- An accepted command other than INIT leaves the ports and STATUS (R34). -/
theorem exec_sameSurface_of_decode {i : Instr} {s t : State} {w : Word} (hdecode : decode s.cfg.readback w = .ok i)
    (hinit : i ≠ .init) (h : exec i s = .next t) : s.SameSurface t := by
  refine ⟨exec_samePorts h, ?_⟩
  cases i with
  | init => exact absurd rfl hinit
  | readS x =>
    obtain ⟨-, -, hstatus⟩ := (everyCommandWritesOnlyItsRow (.readS x) s t h).2
    exact hstatus (readback_of_decode hdecode (isReadback_opc_encode (.readS x)))
  | readReg r =>
    obtain ⟨-, -, hstatus⟩ := (everyCommandWritesOnlyItsRow (.readReg r) s t h).2
    exact hstatus (readback_of_decode hdecode (isReadback_opc_encode (.readReg r))) (of_decide_eq_true (wf_of_decode hdecode))
  | _ => exact (exec_sameSurface (by simp) (by simp) h).status

/-- An accepted command raises no error (R34). -/
theorem exec_err_eq_false {i : Instr} {s t : State} {w : Word} (hdecode : decode s.cfg.readback w = .ok i)
    (h : exec i s = .next t) (hs : s.err = false) : t.err = false := by
  by_cases hinit : i = .init
  · subst hinit
    cases h
    rfl
  · exact (exec_sameSurface_of_decode hdecode hinit h).status.err.trans hs

/-- Settles O16, case by case of what a step without reset can do. -/
theorem errIsStickyUntilInitOrReset : Obligations.ErrIsStickyUntilInitOrReset := by
  unfold Obligations.ErrIsStickyUntilInitOrReset
  intro s t h hrst
  rcases step_cases h with ⟨hreset, -⟩ | ⟨-, -, rfl⟩ | ⟨-, -, -, rfl⟩ |
    ⟨word, words, -, hbusy, hvalid, hoffered, ⟨cause, hdecode, rfl⟩ | ⟨i, hdecode, hx⟩⟩
  case inl => exact absurd hreset (by simp [hrst])
  case inr.inl =>
    have hstatus := (flowed_busyEdge s).status
    exact ⟨fun _ _ => hstatus, fun herr herr' => absurd (herr'.symm.trans (hstatus.err.trans herr)) (by decide)⟩
  case inr.inr.inl => exact ⟨fun _ _ => ⟨rfl, rfl⟩, fun herr herr' => absurd (herr'.symm.trans herr) (by decide)⟩
  case inr.inr.inr.inl =>
    refine ⟨fun herr _ => ?_, fun _ _ => ⟨hbusy, hvalid, word, words, cause, hoffered, hdecode, ?_⟩⟩
    · rw [State.reject_of_err (s.consumeWord_err.trans herr)]
      exact ⟨rfl, rfl⟩
    · rw [State.reject_offered, State.consumeWord_offered, hoffered, List.tail_cons]
  case inr.inr.inr.inr =>
    refine ⟨fun _ hother => ?_, fun herr herr' => ?_⟩
    · have hinit : i ≠ .init := by
        rintro rfl
        have hword : word = 0x01000000#32 := (encode_of_decode hdecode).symm.trans encode_init
        simp [hbusy, hoffered, hword] at hother
      obtain ⟨herr, hcode⟩ := (exec_sameSurface_of_decode (s := s.acceptWord) hdecode hinit hx).status
      exact ⟨herr, hcode⟩
    · exact absurd (herr'.symm.trans (exec_err_eq_false (s := s.acceptWord) hdecode hx herr)) (by decide)

/-! ### What an accepted INIT leaves (R263, R274) -/

/-- The engine of `s` holds what an INIT at `p` leaves, and was built like that of `p`. -/
structure State.FreshAfter (p s : State) : Prop where
  engine : p.initializeState.clearErr.SameEngine s
  status : p.initializeState.clearErr.SameStatus s
  cfg : s.cfg = p.cfg

theorem State.Flowed.sameEngine {s t : State} (h : s.Flowed t) : s.SameEngine t :=
  ⟨⟨h.mem.symm, h.registers.indices.i.symm, h.registers.indices.j.symm, h.registers.indices.k.symm, h.registers.w.symm⟩,
    h.registers.a.symm, h.registers.z.symm⟩

theorem State.FreshAfter.of_flowed {p s t : State} (h : p.FreshAfter s) (hflowed : s.Flowed t) : p.FreshAfter t :=
  ⟨h.engine.trans hflowed.sameEngine, h.status.trans hflowed.status, hflowed.cfg.trans h.cfg⟩

theorem State.flowed_passEdge (s : State) : s.Flowed s.passEdge :=
  ⟨rfl, ⟨rfl, ⟨rfl, rfl, rfl⟩, rfl, rfl⟩, ⟨rfl, rfl⟩, rfl, rfl, rfl⟩

/-- An edge that neither resets nor transfers a word moves bytes only. -/
theorem flowed_of_quiet {s t : State} (hquiet : portEvent s = .busy ∨ portEvent s = .idle) (h : step s = .next t) :
    s.Flowed t := by
  rcases hquiet with hevent | hevent
  · simp only [step, hevent] at h
    cases h
    exact flowed_busyEdge s
  · simp only [step, hevent] at h
    cases h
    exact s.flowed_passEdge

/-- The edge at the run's first state transferred the word of INIT (R74, R274). -/
theorem AfterInit.transferred {p s : State} (h : AfterInit p s) :
    portEvent p = .command 0x01000000#32 ∧ step p = exec .init p.acceptWord := by
  induction h with
  | accepted htransferred hinit _ =>
    have hword := (encode_of_decode hinit).symm.trans encode_init
    exact ⟨hword ▸ htransferred, step_of_accepted htransferred hinit⟩
  | waits _ _ _ ih => exact ih

theorem AfterInit.fresh {p s : State} (h : AfterInit p s) : p.FreshAfter s := by
  induction h with
  | accepted htransferred hinit h =>
    rw [step_of_accepted htransferred hinit] at h
    cases h
    exact ⟨⟨⟨rfl, rfl, rfl, rfl, rfl⟩, rfl, rfl⟩, ⟨rfl, rfl⟩, rfl⟩
  | waits _ hquiet ht ih => exact ih.of_flowed (flowed_of_quiet hquiet ht)

/-- A fresh engine, idle and with the session's words next, meets CLEAN_SESSION (R274). -/
theorem AfterInit.cleanSession {p s : State} {session : List Word} (h : AfterInit p s) (hidle : s.busy = false)
    (howned : session <+: s.offered) : CleanSession session p s := by
  obtain ⟨hengine, hstatus, -⟩ := h.fresh
  obtain ⟨-, hbuffer, -⟩ := s.busy_eq_false_iff.mp hidle
  have hS : ∀ v : Byte, s.S v = v := fun v => by
    rw [← hengine.core.S, State.clearErr_S, State.initializeState_S]
  exact ⟨h, hS, ⟨hengine.a.symm, hengine.core.i.symm, hengine.core.j.symm, hengine.core.k.symm, hengine.core.w.symm,
    hengine.z.symm⟩, ⟨hstatus.err, hstatus.errcode⟩, ⟨hidle, hbuffer⟩, howned⟩

theorem decode_initWord (b : Bool) : decode b 0x01000000#32 = .ok .init := by cases b <;> rfl

/-- Settles O24, from the run of an accepted INIT. -/
theorem initLeavesWhatResetLeaves : Obligations.InitLeavesWhatResetLeaves := by
  unfold Obligations.InitLeavesWhatResetLeaves
  refine ⟨fun s c => ⟨_, exec_init s, rfl, ⟨rfl, ⟨rfl, rfl, rfl⟩, rfl, rfl⟩, rfl, rfl⟩,
    fun _ _ _ h hidle howned => h.cleanSession hidle howned, fun _ p _ h => ?begun,
    fun p ws hrst hvalid hbusy hoffered => ?reached⟩
  case begun =>
    obtain ⟨htransferred, hstep⟩ := h.begun.transferred
    exact ⟨htransferred, _, exec_init _, hstep.trans (exec_init _)⟩
  case reached =>
    have htransferred := portEvent_of_transferred hrst hvalid hbusy hoffered
    have hdecode := decode_initWord p.cfg.readback
    have hstep : step p = .next p.acceptWord.initializeState.clearErr :=
      (step_of_accepted htransferred hdecode).trans (exec_init _)
    obtain ⟨-, hbuffer, hpending⟩ := p.busy_eq_false_iff.mp hbusy
    refine ⟨_, hstep, .accepted htransferred hdecode hstep, ?_, ?_⟩
    · simp [hoffered]
    · simp [State.busy_eq_false_iff, hbuffer, hpending]

end Sys2Proof.Machine
end

section
/-! SUPPORT. The ports run the offered commands (20_memory R58, 30_encoding R82, R84, 70_reset R272, R274): a command reads neither the
host's words nor its bytes, so that the step which transfers a word is the command's meaning, and a sequence offered at the ports
ends as the sequence performed by itself. -/

namespace Sys2Proof.Machine

/-! ### The host's side of a state -/

/-- `s` with a host that had taken the bytes `r` before those it has, and has the words `ws` to present. -/
def State.onHost (s : State) (r : List Byte) (ws : List Word) : State := { s with received := r ++ s.received, offered := ws }

theorem State.sameEngine_onHost (s : State) (r : List Byte) (ws : List Word) : s.SameEngine (s.onHost r ws) :=
  ⟨⟨rfl, rfl, rfl, rfl, rfl⟩, rfl, rfl⟩

theorem State.SamePorts.onHost {s t : State} (h : s.SamePorts t) (r : List Byte) (ws : List Word) :
    (s.onHost r ws).SamePorts (t.onHost r ws) :=
  ⟨h.cfg, h.working, h.buffer, congrArg (r ++ ·) h.received, rfl, h.edges⟩

theorem State.onHost_onHost (s : State) (r : List Byte) (ws ws' : List Word) :
    (s.onHost r ws).onHost [] ws' = s.onHost r ws' := rfl

theorem State.onHost_of_offered {s : State} {ws : List Word} (h : s.offered = ws) : s.onHost [] ws = s := by
  rw [← h]
  rfl

theorem State.drained_onHost (s : State) (r : List Byte) (ws : List Word) : (s.onHost r ws).drained = s.drained.onHost r ws := by
  simp [State.drained, State.onHost]

theorem State.SameStatus.reject {s s' : State} (h : s.SameStatus s') (c : Rejection) : (s.reject c).SameStatus (s'.reject c) := by
  rcases s.reject_cases c with ⟨herr, heq⟩ | ⟨herr, heq⟩
  · rw [heq, State.reject_of_err (h.err.trans herr)]
    exact h
  · have herr' : s'.err = false := h.err.trans herr
    refine ⟨by rw [State.reject_err, State.reject_err], ?_⟩
    rw [State.reject_errcode_of_not_err herr, State.reject_errcode_of_not_err herr']

/-- A command does the same to STATUS from any two states with the same STATUS and build parameters. -/
theorem exec_sameStatus {i : Instr} {s s' t t' : State} (hcfg : s'.cfg = s.cfg) (hstatus : s.SameStatus s')
    (h : exec i s = .next t) (h' : exec i s' = .next t') : t.SameStatus t' := by
  cases i with
  | init => cases h; cases h'; exact ⟨rfl, rfl⟩
  | readS x =>
    cases hb : s.cfg.readback with
    | true =>
      rw [exec_readS_of_readback hb] at h
      rw [exec_readS_of_readback (hcfg ▸ hb)] at h'
      cases h; cases h'; exact ⟨hstatus.err, hstatus.errcode⟩
    | false =>
      rw [exec_readS_of_not_readback hb] at h
      rw [exec_readS_of_not_readback (hcfg ▸ hb)] at h'
      cases h; cases h'; exact hstatus.reject _
  | readReg r =>
    cases hb : s.cfg.readback with
    | true =>
      cases hn : regOfNumber r with
      | some n =>
        rw [exec_readReg_of_some hb hn] at h
        rw [exec_readReg_of_some (hcfg ▸ hb) hn] at h'
        cases h; cases h'; exact ⟨hstatus.err, hstatus.errcode⟩
      | none =>
        rw [exec_readReg_of_none hb hn] at h
        rw [exec_readReg_of_none (hcfg ▸ hb) hn] at h'
        cases h; cases h'; exact hstatus.reject _
    | false =>
      rw [exec_readReg_of_not_readback hb] at h
      rw [exec_readReg_of_not_readback (hcfg ▸ hb)] at h'
      cases h; cases h'; exact hstatus.reject _
  | _ =>
    have hs := (exec_sameSurface (by simp) (by simp) h).status
    have hs' := (exec_sameSurface (by simp) (by simp) h').status
    exact (hs.symm.trans hstatus).trans hs'

/-- A command does the same whatever the host has taken and has to present. -/
theorem exec_onHost {i : Instr} {s t : State} (h : exec i s = .next t) (r : List Byte) (ws : List Word) :
    exec i (s.onHost r ws) = .next (t.onHost r ws) := by
  obtain ⟨u, t', bs, hu, ht', hengine, hpending, hpending'⟩ := exec_congr i (s.sameEngine_onHost r ws) (.inl rfl)
  obtain rfl : t = u := Host.Outcome.next.inj (h.symm.trans hu)
  have hports : (t.onHost r ws).SamePorts t' := ((exec_samePorts h).onHost r ws).symm.trans (exec_samePorts ht')
  have hstatus : t.SameStatus t' := exec_sameStatus (s := s) (s' := s.onHost r ws) rfl ⟨rfl, rfl⟩ h ht'
  have heq : t' = t.onHost r ws :=
    State.eq_of_same (hengine.symm.trans (t.sameEngine_onHost r ws)) hports ⟨hstatus.err, hstatus.errcode⟩
      (hpending'.trans hpending.symm)
  rw [ht', heq]

theorem runSeq_cons {i : Instr} {is : List Instr} {s t : State} (h : exec i s = .next t) :
    runSeq (i :: is) s = runSeq is t.drained := by
  simp only [runSeq, h]

theorem runSeq_onHost {is : List Instr} {s t : State} (h : runSeq is s = .next t) (r : List Byte) (ws : List Word) :
    runSeq is (s.onHost r ws) = .next (t.onHost r ws) := by
  induction is generalizing s with
  | nil => cases h; rfl
  | cons i is ih =>
    obtain ⟨u, hu⟩ := exists_exec_eq_next i s
    rw [runSeq_cons hu] at h
    rw [runSeq_cons (exec_onHost hu r ws), State.drained_onHost]
    exact ih h

/-! ### The step that transfers a command's word -/

/-- At a plain edge an idle engine performs the offered command, also where the decoder rejects its word, since the meaning then
makes the same rejection (log entry 8). -/
theorem step_transfers_plain {s : State} {i : Instr} {ws : List Word} (hwf : i.wf = true) (hidle : s.busy = false)
    (hedges : s.edges = []) (hoffered : s.offered = encode i :: ws) : step s = exec i (s.onHost [] ws) := by
  have hedge : s.edge = Edge.plain := by simp [State.edge, hedges]
  have hevent : portEvent s = .command (encode i) :=
    portEvent_of_transferred (by rw [hedge]; rfl) (by rw [hedge]; rfl) hidle hoffered
  obtain ⟨hworking, -, -⟩ := s.busy_eq_false_iff.mp hidle
  have hconsume : s.consumeWord = s.onHost [] ws := by
    simp [State.consumeWord, State.passEdge, State.onHost, hoffered, hedges]
  have haccept : s.acceptWord = s.onHost [] ws := by
    rw [State.acceptWord, hconsume, hedge]
    simp [State.onHost, Edge.plain, hworking]
  by_cases hread : isReadback (Word.opc (encode i)) = true → s.cfg.readback = true
  · rw [step_of_accepted hevent (decode_encode hwf hread), haccept]
  · obtain ⟨hi, hb⟩ := Classical.not_imp.mp hread
    have hb' : s.cfg.readback = false := Bool.eq_false_of_not_eq_true hb
    rw [step_of_rejected hevent (hb' ▸ decode_false_of_isReadback hi), hconsume]
    rw [isReadback_opc_encode] at hi
    cases i with
    | readS x => exact (exec_readS_of_not_readback (s := s.onHost [] ws) hb' x).symm
    | readReg r => exact (exec_readReg_of_not_readback (s := s.onHost [] ws) hb' r).symm
    | _ => cases hi

/-! ### Sequences of commands -/

theorem runEdges_add {s t : State} {m : Nat} (h : runEdges m s = some t) (n : Nat) : runEdges (m + n) s = runEdges n t := by
  induction m generalizing s with
  | zero => cases h; rw [Nat.zero_add]
  | succ m ih =>
    obtain ⟨u, hu⟩ := exists_step_eq_next s
    rw [runEdges_succ_of_step hu] at h
    rw [Nat.succ_add, runEdges_succ_of_step hu, ih h]

/-- An idle engine is idle again when a command's bytes have been taken (R33). -/
theorem exec_drained_not_busy {i : Instr} {s t : State} (h : exec i s = .next t) (hidle : s.busy = false) :
    t.drained.busy = false := by
  obtain ⟨hworking, -, -⟩ := s.busy_eq_false_iff.mp hidle
  exact t.drained.busy_eq_false_iff.mpr ⟨(exec_samePorts h).working.trans hworking, rfl, rfl⟩

/-- A state with no work left is complete when the host has taken every byte. -/
theorem State.completed_eq_drained {s : State} (h : s.working = false) : s.completed = s.drained := by
  simp [State.completed, State.drained, h]

/-- Edges run the offered commands as they run one after another, each drained before the next (R58, R82). -/
theorem exists_runEdges_eq_runSeq {is : List Instr} {s t : State} {ws : List Word} (hwf : ∀ i ∈ is, i.wf = true)
    (hdepth : 1 ≤ s.cfg.outDepth) (hidle : s.busy = false) (hedges : s.edges = []) (hoffered : s.offered = is.map encode ++ ws)
    (h : runSeq is s = .next t) : ∃ n, runEdges n s = some (t.onHost [] ws) := by
  induction is generalizing s t with
  | nil =>
    cases h
    exact ⟨0, congrArg some (State.onHost_of_offered hoffered).symm⟩
  | cons i is ih =>
    obtain ⟨u, hu⟩ := exists_exec_eq_next i s
    rw [runSeq_cons hu] at h
    obtain ⟨hcfg, hworking, -, -, -, hedges'⟩ := exec_samePorts hu
    have hworking' : u.working = false := hworking.trans (s.busy_eq_false_iff.mp hidle).1
    have hstep : step s = .next (u.onHost [] (is.map encode ++ ws)) := by
      rw [step_transfers_plain (hwf i List.mem_cons_self) hidle hedges (hoffered.trans (List.cons_append ..)), exec_onHost hu]
    obtain ⟨n, -, hdrain⟩ := exists_runEdges_completed (s := u.onHost [] (is.map encode ++ ws)) (hcfg ▸ hdepth)
      (hedges'.trans hedges)
    rw [State.completed_eq_drained (s := u.onHost [] (is.map encode ++ ws)) hworking', State.drained_onHost] at hdrain
    obtain ⟨m, hrest⟩ := ih (s := u.drained.onHost [] (is.map encode ++ ws)) (fun j hj => hwf j (List.mem_cons_of_mem i hj))
      (hcfg ▸ hdepth) (exec_drained_not_busy (t := u) hu hidle) (hedges'.trans hedges) rfl (runSeq_onHost h [] _)
    exact ⟨n + m + 1, by rw [runEdges_succ_of_step hstep, runEdges_add hdrain, hrest, State.onHost_onHost]⟩

/-- Settles O50: nothing is offered behind the commands. -/
theorem portsRunTheOfferedCommands : Obligations.PortsRunTheOfferedCommands := by
  unfold Obligations.PortsRunTheOfferedCommands
  intro is s t hwf hcfg hidle hedges hoffered h
  exact exists_runEdges_eq_runSeq hwf (of_decide_eq_true hcfg) hidle hedges (by rw [hoffered, List.append_nil]) h

/-! ### Sessions from CLEAN_SESSION -/

theorem runSeq_not_busy {is : List Instr} {s t : State} (h : runSeq is s = .next t) (hidle : s.busy = false) : t.busy = false := by
  induction is generalizing s with
  | nil => cases h; exact hidle
  | cons i is ih =>
    obtain ⟨u, hu⟩ := exists_exec_eq_next i s
    rw [runSeq_cons hu] at h
    exact ih h (exec_drained_not_busy hu hidle)

/-- Accepted commands raise no error (R34). -/
theorem runSeq_err_eq_false {is : List Instr} {s t : State} (h : runSeq is s = .next t)
    (hdecode : ∀ i ∈ is, decode s.cfg.readback (encode i) = .ok i) (herr : s.err = false) : t.err = false := by
  induction is generalizing s with
  | nil => cases h; exact herr
  | cons i is ih =>
    obtain ⟨u, hu⟩ := exists_exec_eq_next i s
    rw [runSeq_cons hu] at h
    have hcfg : u.drained.cfg = s.cfg := (exec_samePorts hu).cfg
    refine ih h (fun j hj => ?_) (exec_err_eq_false (t := u) (hdecode i List.mem_cons_self) hu herr)
    rw [hcfg]
    exact hdecode j (List.mem_cons_of_mem i hj)

/-- What follows an accepted INIT gives the bytes of the session that begins with it (R215, R274). -/
theorem State.FreshAfter.exists_sessionBytes {p s : State} (h : p.FreshAfter s) (is : List Instr) :
    ∃ t, runSeq is s.sessionStart = .next t ∧ sessionBytes (.init :: is) p = some t.received := by
  have hengine : s.sessionStart.SameEngine p.sessionStart.initializeState.clearErr :=
    ⟨⟨h.engine.core.mem.symm, h.engine.core.i.symm, h.engine.core.j.symm, h.engine.core.k.symm, h.engine.core.w.symm⟩,
      h.engine.a.symm, h.engine.z.symm⟩
  have hsession : s.sessionStart.SameSession p.sessionStart.initializeState.clearErr := ⟨hengine, rfl⟩
  obtain ⟨t, t', ht, ht', hreceived⟩ := hsession.runSeq is (.inl (congrArg Config.readback h.cfg))
  exact ⟨t, ht, by rw [hreceived]; exact sessionBytes_of_runSeq ht'⟩

/-- Settles O52: from CLEAN_SESSION the engine runs the offered commands, and the host's earlier bytes stay in front. -/
theorem cleanSessionRunsToItsEnd : Obligations.CleanSessionRunsToItsEnd := by
  unfold Obligations.CleanSessionRunsToItsEnd
  intro is p s hclean hwf hcfg hedges
  obtain ⟨ws, hws⟩ := hclean.owned
  obtain ⟨hidle, -⟩ := hclean.idle
  obtain ⟨-, hbuffer, hpending⟩ := s.busy_eq_false_iff.mp hidle
  obtain ⟨t, ht, hbytes⟩ := hclean.begun.fresh.exists_sessionBytes is
  have hs : s.sessionStart.onHost s.received s.offered = s := by
    ext1 <;> simp [State.sessionStart, State.onHost, hbuffer, hpending]
  have hrun : runSeq is s = .next (t.onHost s.received s.offered) := by
    have := runSeq_onHost ht s.received s.offered
    rwa [hs] at this
  obtain ⟨n, hn⟩ := exists_runEdges_eq_runSeq hwf (of_decide_eq_true hcfg) hidle hedges hws.symm hrun
  refine ⟨n, t.onHost s.received ws, t.received, hn, hbytes, rfl, ?idle, ?consumed, fun hdecode => ?noError⟩
  case idle => exact runSeq_not_busy (t := t.onHost s.received s.offered) hrun hidle
  case consumed =>
    rw [← hws, ← List.length_map (f := encode), List.drop_left]
    rfl
  case noError => exact runSeq_err_eq_false (t := t.onHost s.received s.offered) hrun hdecode hclean.status.1

end Sys2Proof.Machine
end

section
/-! SUPPORT. The work of every command (42_scrambler R149, 70_reset R271): a counted run ends in the command's state, and what each
counted operation adds to the counts, as one relation whose costs add up. -/

namespace Sys2Proof.Machine

/-! ### Costs -/

/-- Between two states of a counted run, work of a row of R271's table was done. -/
def Counted.Costs (c c' : Counted) (updates comparisons fewest most bytes : Nat) : Prop :=
  ∃ w : Work, c'.work = c.work.plus w ∧ w.Within updates comparisons fewest most bytes

theorem Counted.costs_refl (c : Counted) : c.Costs c 0 0 0 0 0 := ⟨Work.none, rfl, rfl, rfl, le_refl _, le_refl _, rfl⟩

/-- Costs of two runs in a row add up. -/
theorem Counted.Costs.trans {c d e : Counted} {u v x y f g m n p q : Nat} (h : c.Costs d u x f m p) (h' : d.Costs e v y g n q) :
    c.Costs e (u + v) (x + y) (f + g) (m + n) (p + q) := by
  obtain ⟨w, hw, hu, hx, hf, hm, hp⟩ := h
  obtain ⟨w', hw', hv, hy, hg, hn, hq⟩ := h'
  refine ⟨w.plus w', by rw [hw', hw, Work.plus_assoc], ?_, ?_, ?_, ?_, ?_⟩ <;>
    simp only [Work.plus_updates, Work.plus_comparisons, Work.plus_swaps, Work.plus_bytes] <;> omega

/-- From a start with no work done, what was done is the count. -/
theorem Counted.Costs.within {s : State} {c : Counted} {u x f m p : Nat} (h : Counted.Costs ⟨s, Work.none⟩ c u x f m p) :
    c.work.Within u x f m p := by
  obtain ⟨w, hw, hwithin⟩ := h
  have hnone : Work.none.plus w = w := Work.ext (Nat.zero_add _) (Nat.zero_add _) (Nat.zero_add _) (Nat.zero_add _)
  rwa [hw, hnone]

/-! ### The counted operations -/

theorem Counted.costs_apply (c : Counted) (f : State → State) : c.Costs (c.apply f) 0 0 0 0 0 := c.costs_refl

theorem Counted.costs_swap (c : Counted) (x y : Byte) : c.Costs (c.swap x y) 0 0 1 1 0 :=
  ⟨_, c.swap_work x y, rfl, rfl, le_refl _, le_refl _, rfl⟩

theorem Counted.costs_emit (c : Counted) (b : Byte) : c.Costs (c.emit b) 0 0 0 0 1 :=
  ⟨_, c.emit_work b, rfl, rfl, le_refl _, le_refl _, rfl⟩

theorem Counted.costs_update (c : Counted) : c.Costs c.update 1 0 1 1 0 :=
  ⟨_, c.update_work, rfl, rfl, le_refl _, le_refl _, rfl⟩

theorem Counted.costs_whip (c : Counted) : c.Costs c.whip 512 0 512 512 0 :=
  ⟨_, c.whip_work, rfl, rfl, le_refl _, le_refl _, rfl⟩

theorem Counted.costs_crush (c : Counted) : c.Costs c.crush 0 128 0 128 0 := by
  obtain ⟨n, hn, hw⟩ := c.crush_work
  exact ⟨_, hw, rfl, rfl, Nat.zero_le n, hn, rfl⟩

theorem Counted.costs_shuffle (c : Counted) : c.Costs c.shuffle 1536 256 1536 1792 0 := by
  obtain ⟨n, hfewest, hmost, hw⟩ := c.shuffle_work
  exact ⟨_, hw, rfl, rfl, hfewest, hmost, rfl⟩

/-! ### Absorption, counted -/

theorem Counted.threshold_state (c : Counted) : c.threshold.state = c.state.threshold := by
  unfold Counted.threshold State.threshold
  split
  · exact c.shuffle_state
  · rfl

theorem Counted.threshold_of_ne {c : Counted} (h : c.state.a ≠ 128#8) : c.threshold = c := if_neg h

theorem Counted.threshold_of_eq {c : Counted} (h : c.state.a = 128#8) : c.threshold = c.shuffle := if_pos h

theorem Counted.absorbNibble_state (c : Counted) (v : Nibble) : (c.absorbNibble v).state = c.state.absorbNibble v := by
  simp only [Counted.absorbNibble, State.absorbNibble, Counted.apply_state, Counted.swap_state, Counted.threshold_state]

theorem Counted.absorbStop_state (c : Counted) : c.absorbStop.state = c.state.absorbStop := by
  simp only [Counted.absorbStop, State.absorbStop, Counted.apply_state, Counted.threshold_state]

theorem Counted.costs_threshold_absorbNibble (c : Counted) (v : Nibble) : c.threshold.Costs (c.absorbNibble v) 0 0 1 1 0 :=
  c.threshold.costs_swap c.threshold.state.a (nibbleIndex v)

theorem Counted.costs_absorbNibble_of_ne {c : Counted} (h : c.state.a ≠ 128#8) (v : Nibble) :
    c.Costs (c.absorbNibble v) 0 0 1 1 0 := by
  have hswap := c.costs_threshold_absorbNibble v
  rwa [Counted.threshold_of_ne h] at hswap

theorem Counted.costs_absorbNibble_of_eq {c : Counted} (h : c.state.a = 128#8) (v : Nibble) :
    c.Costs (c.absorbNibble v) 1536 256 1537 1793 0 := by
  have hswap := c.costs_threshold_absorbNibble v
  rw [Counted.threshold_of_eq h] at hswap
  exact c.costs_shuffle.trans hswap

theorem Counted.costs_absorbNibble (c : Counted) (v : Nibble) :
    if c.state.a = 128#8 then c.Costs (c.absorbNibble v) 1536 256 1537 1793 0 else c.Costs (c.absorbNibble v) 0 0 1 1 0 := by
  split
  next h => exact Counted.costs_absorbNibble_of_eq h v
  next h => exact Counted.costs_absorbNibble_of_ne h v

/-- A stop is its threshold test, and counts nothing of its own (R122). -/
theorem Counted.costs_absorbStop (c : Counted) :
    if c.state.a = 128#8 then c.Costs c.absorbStop 1536 256 1536 1792 0 else c.Costs c.absorbStop 0 0 0 0 0 := by
  have hstop : c.absorbStop.work = c.threshold.work := rfl
  unfold Counted.Costs
  rw [hstop]
  split
  next h => rw [Counted.threshold_of_eq h]; exact c.costs_shuffle
  next h => rw [Counted.threshold_of_ne h]; exact c.costs_refl

/-- ABSORB_BYTE shuffles once where the counter is at the threshold before one of its nibbles, and else not at all (R121, R123). -/
theorem Counted.costs_absorbNibble_twice (c : Counted) (v v' : Nibble) :
    if c.state.a = 127#8 ∨ c.state.a = 128#8 then c.Costs ((c.absorbNibble v).absorbNibble v') 1536 256 1538 1794 0
    else c.Costs ((c.absorbNibble v).absorbNibble v') 0 0 2 2 0 := by
  by_cases h128 : c.state.a = 128#8
  · rw [if_pos (.inr h128)]
    have hone : (c.absorbNibble v).state.a ≠ 128#8 := by
      rw [Counted.absorbNibble_state, State.absorbNibble_of_eq h128, State.absorbNibble_a (by rw [State.shuffle_a]; decide),
        State.shuffle_a]
      decide
    exact (Counted.costs_absorbNibble_of_eq h128 v).trans (Counted.costs_absorbNibble_of_ne hone v')
  · have hnext : (c.absorbNibble v).state.a = c.state.a + 1#8 := by rw [Counted.absorbNibble_state, State.absorbNibble_a h128]
    by_cases h127 : c.state.a = 127#8
    · rw [if_pos (.inl h127)]
      have hfull : (c.absorbNibble v).state.a = 128#8 := by rw [hnext, h127]; rfl
      exact (Counted.costs_absorbNibble_of_ne h128 v).trans (Counted.costs_absorbNibble_of_eq hfull v')
    · rw [if_neg (by simp [h127, h128])]
      have hbelow : (c.absorbNibble v).state.a ≠ 128#8 := by rw [hnext]; bv_omega
      exact (Counted.costs_absorbNibble_of_ne h128 v).trans (Counted.costs_absorbNibble_of_ne hbelow v')

/-! ### Output, counted -/

theorem Counted.drain_state (c : Counted) : c.drain.state = c.state.drain := by
  unfold Counted.drain State.drain
  split
  · exact c.shuffle_state
  · rfl

theorem Counted.costs_drain (c : Counted) :
    if c.state.a = 0#8 then c.Costs c.drain 0 0 0 0 0 else c.Costs c.drain 1536 256 1536 1792 0 := by
  unfold Counted.drain
  split
  next h => rw [if_neg (by rw [h]; decide)]; exact c.costs_refl
  next h => rw [if_pos ((BitVec.pos_iff_ne_zero _).mpr h)]; exact c.costs_shuffle

theorem State.drain_a (s : State) : s.drain.a = 0#8 := by
  by_cases h : s.a = 0#8
  · rw [State.drain_of_eq_zero h, h]
  · rw [State.drain_of_pos ((BitVec.pos_iff_ne_zero _).mpr h), State.shuffle_a]

theorem Counted.emitDrip_state (c : Counted) : c.emitDrip.state = c.state.emitDrip := by
  simp only [Counted.emitDrip, State.emitDrip, State.drip, Counted.emit_state, Counted.apply_state, Counted.update_state,
    Counted.drain_state]

/-- What a drip does after its test. -/
theorem Counted.costs_drain_emitDrip (c : Counted) : c.drain.Costs c.emitDrip 1 0 1 1 1 :=
  (c.drain.costs_update.trans (Counted.costs_apply _ State.output)).trans (Counted.costs_emit _ _)

theorem Counted.costs_emitDrip (c : Counted) :
    if c.state.a = 0#8 then c.Costs c.emitDrip 1 0 1 1 1 else c.Costs c.emitDrip 1537 256 1537 1793 1 := by
  have hdrain := c.costs_drain
  split at hdrain
  next h => rw [if_pos h]; exact hdrain.trans c.costs_drain_emitDrip
  next h => rw [if_neg h]; exact hdrain.trans c.costs_drain_emitDrip

/-- With nothing pending, n drips are n updates, swaps and bytes (R172). -/
theorem Counted.costs_emitDrips {c : Counted} (h : c.state.a = 0#8) (n : Nat) :
    c.Costs (Nat.iterate Counted.emitDrip n c) n 0 n n n := by
  induction n generalizing c with
  | zero => exact c.costs_refl
  | succ n ih =>
    have hdrip := c.costs_emitDrip
    rw [if_pos h] at hdrip
    have ha : c.emitDrip.state.a = 0#8 := by
      rw [Counted.emitDrip_state]
      exact (State.emitDrips_a_w h 1).1.trans h
    rw [Function.iterate_succ_apply, Nat.add_comm n 1]
    exact hdrip.trans (ih ha)

theorem Counted.emitDrips_state (n : Nat) (c : Counted) :
    (Nat.iterate Counted.emitDrip n c).state = Nat.iterate State.emitDrip n c.state := by
  induction n generalizing c with
  | zero => rfl
  | succ n ih => rw [Function.iterate_succ_apply, Function.iterate_succ_apply, ih, Counted.emitDrip_state]

theorem Counted.costs_squeeze (c : Counted) (n : Nat) :
    if c.state.a = 0#8 then c.Costs (Nat.iterate Counted.emitDrip n c.drain) n 0 n n n
    else c.Costs (Nat.iterate Counted.emitDrip n c.drain) (1536 + n) 256 (1536 + n) (1792 + n) n := by
  have hdrips : c.drain.Costs (Nat.iterate Counted.emitDrip n c.drain) n 0 n n n :=
    Counted.costs_emitDrips (by rw [Counted.drain_state, State.drain_a]) n
  have hdrain := c.costs_drain
  split at hdrain
  next h => rw [if_pos h]; simpa only [Nat.zero_add] using hdrain.trans hdrips
  next h => rw [if_neg h]; simpa only [Nat.zero_add, Nat.add_zero] using hdrain.trans hdrips

/-! ### CRUSH where every pair is in order -/

theorem Counted.crushPair_of_inOrder {c : Counted} (h : c.state.PairsInOrder) {v : Byte} (hv : v < 128#8) :
    (c.crushPair v).state = c.state ∧ (c.crushPair v).work.swaps = c.work.swaps := by
  have hle : ¬ c.state.S (255#8 - v) < c.state.S v := BitVec.not_lt.mpr (h v hv)
  refine ⟨by rw [Counted.crushPair_state, h.crushPair_eq hv], ?_⟩
  rw [Counted.crushPair_work, if_neg hle, Work.plus_swaps, Nat.add_zero]

/-- A crush swaps nothing where every pair is in order (R271). -/
theorem Counted.crush_swaps_of_inOrder {c : Counted} (h : c.state.PairsInOrder) : c.crush.work.swaps = c.work.swaps := by
  have hkept : c.crush.state = c.state ∧ c.crush.work.swaps = c.work.swaps := by
    unfold Counted.crush
    refine List.foldlRecOn (motive := fun d => d.state = c.state ∧ d.work.swaps = c.work.swaps) crushRange Counted.crushPair
      ⟨rfl, rfl⟩ fun d hd v hv => ?_
    obtain ⟨hstate, hswaps⟩ := hd
    obtain ⟨hstate', hswaps'⟩ := Counted.crushPair_of_inOrder (hstate ▸ h) (mem_crushRange.mp hv)
    exact ⟨hstate'.trans hstate, hswaps'.trans hswaps⟩
  exact hkept.2

/-! ### Commands -/

/-- The counted run of a command ends in the command's state. -/
theorem exec_eq_next_run (i : Instr) (c : Counted) : exec i c.state = .next (Counted.run i c).state := by
  cases i with
  | init => rfl
  | swap x y => rfl
  | absorbNibble v => rw [exec_absorbNibble, Counted.run, Counted.absorbNibble_state]
  | absorbByte b => rw [exec_absorbByte, Counted.run, Counted.absorbNibble_state, Counted.absorbNibble_state]
  | absorbStop => rw [Counted.run, Counted.absorbStop_state]; rfl
  | update => rfl
  | whip => rw [exec_whip, Counted.run, Counted.whip_state]
  | crush => rw [exec_crush, Counted.run, Counted.crush_state]
  | shuffle => rw [exec_shuffle, Counted.run, Counted.shuffle_state]
  | output => rfl
  | drip => rw [exec_drip, Counted.run, Counted.emitDrip_state]
  | squeeze n => rw [exec_squeeze, Counted.run, Counted.emitDrips_state, Counted.drain_state]; rfl
  | readS x =>
    cases hb : c.state.cfg.readback with
    | true => rw [exec_readS_of_readback hb]; simp [Counted.run, hb]
    | false => rw [exec_readS_of_not_readback hb]; simp [Counted.run, hb]
  | readReg r =>
    cases hb : c.state.cfg.readback with
    | true =>
      cases hn : regOfNumber r with
      | some n => rw [exec_readReg_of_some hb hn]; simp [Counted.run, hb, hn]
      | none => rw [exec_readReg_of_none hb hn]; simp [Counted.run, hb, hn]
    | false => rw [exec_readReg_of_not_readback hb]; simp [Counted.run, hb]

/-- READ_REG emits its byte, or is rejected and does no work (R86). -/
theorem Counted.costs_readReg (c : Counted) (r : Byte) :
    c.Costs (Counted.run (.readReg r) c) 0 0 0 0 (if c.state.cfg.readback = true ∧ r ≤ 5#8 then 1 else 0) := by
  simp only [Counted.run, ← regOfNumber_isSome_iff]
  by_cases hb : c.state.cfg.readback = true
  · cases hr : regOfNumber r with
    | some n => simpa [hb] using c.costs_emit (c.state.reg n)
    | none => simpa [hb] using c.costs_apply (fun s => s.reject .badRegister)
  · simpa [hb] using c.costs_apply (fun s => s.reject .readbackDisabled)

theorem Counted.costs_readS (c : Counted) (x : Byte) :
    c.Costs (Counted.run (.readS x) c) 0 0 0 0 (if c.state.cfg.readback then 1 else 0) := by
  simp only [Counted.run]
  by_cases hb : c.state.cfg.readback = true
  · simpa [hb] using c.costs_emit (c.state.S x)
  · simpa [hb] using c.costs_apply (fun s => s.reject .readbackDisabled)

/-- Costs by cases, from a start with no work done, are counts by the same cases. -/
theorem Counted.within_of_costs_ite {s : State} {c : Counted} {P : Prop} [Decidable P] {u x f m p u' x' f' m' p' : Nat}
    (h : if P then Counted.Costs ⟨s, Work.none⟩ c u x f m p else Counted.Costs ⟨s, Work.none⟩ c u' x' f' m' p') :
    if P then c.work.Within u x f m p else c.work.Within u' x' f' m' p' := by
  split at h
  next hP => rw [if_pos hP]; exact h.within
  next hP => rw [if_neg hP]; exact h.within

/-- Settles O46, from the cost of each counted operation. -/
theorem workIsBounded : Obligations.WorkIsBounded := by
  unfold Obligations.WorkIsBounded
  intro i s
  refine ⟨exec_eq_next_run i ⟨s, Work.none⟩, ?_⟩
  let c : Counted := ⟨s, Work.none⟩
  cases i with
  | init => exact (c.costs_apply _).within
  | swap x y => exact (c.costs_swap x y).within
  | absorbNibble v => exact Counted.within_of_costs_ite (c.costs_absorbNibble v)
  | absorbByte b => exact Counted.within_of_costs_ite (c.costs_absorbNibble_twice (lowNibble b) (highNibble b))
  | absorbStop => exact Counted.within_of_costs_ite c.costs_absorbStop
  | update => exact c.costs_update.within
  | whip => exact c.costs_whip.within
  | crush => exact ⟨c.costs_crush.within, fun h => Counted.crush_swaps_of_inOrder (c := c) h⟩
  | shuffle => exact c.costs_shuffle.within
  | output => exact ((c.costs_apply State.output).trans (Counted.costs_emit _ _)).within
  | drip => exact Counted.within_of_costs_ite c.costs_emitDrip
  | squeeze n => exact Counted.within_of_costs_ite (c.costs_squeeze (squeezeCount n))
  | readS x => exact (c.costs_readS x).within
  | readReg r => exact (c.costs_readReg r).within

end Sys2Proof.Machine
end

section
/-! SUPPORT. The length of a digest (45_host_sequences R207 to R213) and the numeric operands of the assembler (30_encoding R79). -/

namespace Sys2Proof.Machine

/-! ### The length of a digest -/

theorem AbsorbsOnly.append {is js : List Instr} (h : AbsorbsOnly is) (h' : AbsorbsOnly js) : AbsorbsOnly (is ++ js) := by
  intro i hi
  rcases List.mem_append.mp hi with hi | hi
  · exact h i hi
  · exact h' i hi

/-- The stop and the length byte before the squeeze of a digest (R207, R210). -/
theorem absorbsOnly_stop_length (len : Nat) : AbsorbsOnly [.absorbStop, .absorbByte (lengthByte len)] := by
  intro i hi
  simp only [List.mem_cons, List.not_mem_nil, or_false] at hi
  exact hi.imp id fun h => ⟨_, h⟩

/-- Absorbing commands emit nothing (R86): a set-up is a keystream of no data. -/
theorem AbsorbsOnly.byteCount_sum {setup : List Instr} (h : AbsorbsOnly setup) (readback : Bool) :
    (setup.map (Instr.byteCount readback)).sum = 0 := by
  simpa [keystreamSeq] using h.keystreamSeq_byteCount readback 0

/-- The cut of the count at 65535 is above the ceiling of SQUEEZE (R172, R211). -/
theorem min_squeezeArg (len : Nat) : min (squeezeArg len).toNat 256 = min len 256 := by
  have harg : (squeezeArg len).toNat = min len 65535 := by
    rw [squeezeArg, BitVec.toNat_ofNat]
    exact Nat.mod_eq_of_lt (by omega)
  omega

/-- A session that starts, absorbs and squeezes L bytes gives min(L, 256) (R207 to R211). -/
theorem AbsorbsOnly.exists_digest {setup : List Instr} (h : AbsorbsOnly setup) (len : Nat) (s : State) :
    ∃ bs, sessionBytes (.init :: (setup ++ [.squeeze (squeezeArg len)])) s = some bs ∧ bs.length = min len 256 := by
  obtain ⟨bs, hbs, hlength⟩ := sessionBytes_length (.init :: (setup ++ [.squeeze (squeezeArg len)])) s
  refine ⟨bs, hbs, ?_⟩
  simp [hlength, h.byteCount_sum, Instr.byteCount, min_squeezeArg]

/-- Settles O49: each digest starts a session, absorbs, and squeezes. -/
theorem digestLengthIsCappedAt256 : Obligations.DigestLengthIsCappedAt256 := by
  unfold Obligations.DigestLengthIsCappedAt256
  intro message key len s
  split
  next h => simp [macSeq, hashSeq, basicSeq, h]
  next h =>
    have hmac := (absorbsOnly_key_stop_iv key message).append (absorbsOnly_stop_length len)
    have hhash := (absorbsOnly_absorbSeq message).append (absorbsOnly_stop_length len)
    have hbasic := absorbsOnly_absorbSeq message
    refine ⟨?mac, ?hash, ?basic⟩
    case mac => simpa [macSeq, keySetupSeq, h] using hmac.exists_digest len s
    case hash => simpa [hashSeq, keySetupSeq, h] using hhash.exists_digest len s
    case basic => simpa [basicSeq, keySetupSeq, h] using hbasic.exists_digest len s

/-! ### The assembler -/

theorem asmByte_number (n : Nat) : asmByte (.number n) = if n < 256 then some (BitVec.ofNat 8 n) else none := by
  simp only [asmByte, asmNumber]
  split <;> rfl

theorem asmReg_number (n : Nat) : asmReg (.number n) = if n < 6 then some (BitVec.ofNat 8 n) else none := by
  simp only [asmReg, asmNumber]
  split <;> rfl

/-- A register operand, by name or number, is the number of a register (R193). -/
theorem asmReg_le {t : AsmToken} {r : Byte} (h : asmReg t = some r) : r ≤ 5#8 := by
  cases t with
  | number n =>
    rw [asmReg_number] at h
    split at h
    next hn => cases h; bv_omega
    next => cases h
  | ident name =>
    obtain ⟨reg, -, rfl⟩ := Option.map_eq_some_iff.mp h
    cases reg <;> decide
  | comma => cases h
  | char c => cases h

/-- A READ_REG of the assembler has a register operand (R79). -/
theorem asmReg_of_asmCommand {mnemonic : String} {ops : List AsmToken} {r : Byte}
    (h : asmCommand mnemonic ops = some (.readReg r)) : ∃ t, asmReg t = some r := by
  unfold asmCommand at h
  split at h
  next => split_ifs at h <;> cases h
  next t =>
    split_ifs at h <;> simp at h
    exact ⟨t, h⟩
  next =>
    split_ifs at h
    split at h <;> cases h
  next => cases h

/-- Every command of the assembler is well-formed (R79): every operand but that of READ_REG fits by its type. -/
theorem wf_of_asmCommand {mnemonic : String} {ops : List AsmToken} {i : Instr} (h : asmCommand mnemonic ops = some i) :
    i.wf = true := by
  cases i with
  | readReg r =>
    obtain ⟨t, ht⟩ := asmReg_of_asmCommand h
    exact decide_eq_true (asmReg_le ht)
  | _ => rfl

/-- Settles O51, by the bound of each numeric operand. -/
theorem assemblerRejectsUnfitOperands : Obligations.AssemblerRejectsUnfitOperands := by
  unfold Obligations.AssemblerRejectsUnfitOperands
  refine ⟨fun n => ?nibble, fun n => ?byte, fun n => ?readS, fun n => ?squeeze, fun n => ?readReg, fun m n => ?swap,
    fun _ _ _ => wf_of_asmCommand⟩
  case nibble => simp [asmCommand, asmNumber]
  case byte => simp [asmCommand, asmByte_number]
  case readS => simp [asmCommand, asmByte_number]
  case squeeze => simp [asmCommand, asmNumber]
  case readReg => simp [asmCommand, asmReg_number]
  case swap =>
    by_cases hm : m < 256 <;> by_cases hn : n < 256 <;> simp [asmCommand, asmByte_number, hm, hn]

end Sys2Proof.Machine
end
